-- ==== Sys2Proof/Word.lean ====
section
/-! DEFINITION. The two widths of the machine: the 4-bit nibble of every register, immediate, address and latch
(spec/10_state.md R13) and the 8-bit byte of a memory cell (spec/20_memory.md R31). -/

namespace Sys2Proof

/-- A 4-bit value: a register, an immediate, an address, a latch, an opcode (spec/10_state.md R13). -/
abbrev Nibble := BitVec 4

/-- One memory cell, which is one encoded instruction (spec/20_memory.md R31). -/
abbrev Byte := BitVec 8

end Sys2Proof
end

