-- ==== Sys2Proof/Syntax.lean ====
section
/-! DEFINITION. The abstract syntax: the 12 instruction kinds, their operand classes, the register selector, the
decoded instructions (one constructor per row of spec/opcode_table.json) and the values a front-end hands the encoder. -/

namespace Sys2Proof

/-- The register selector, "one of two values {A, B}" (spec/10_state.md R11). -/
inductive Reg where
  | A
  | B
deriving DecidableEq, Repr

/-- The 12 instruction kinds (spec/30_encoding.md R56), in the order of spec/opcode_table.json. -/
inductive Kind where
  | addA
  | movBtoA
  | inA
  | movA
  | movAtoB
  | addB
  | inB
  | movB
  | outFromB
  | outImmediate
  | jumpIfNoCarry
  | jump
deriving DecidableEq, Repr

/-- The three operand classes of spec/30_encoding.md R52. -/
inductive OperandClass where
  /-- `IMM`: the low nibble is the immediate. -/
  | imm
  /-- `NONE_PASS`: encoded as 0, reported verbatim by the decoder, not used by execution. -/
  | nonePass
  /-- `NONE_ZERO`: encoded as 0, reported as 0 whatever the byte holds. -/
  | noneZero
deriving DecidableEq, Repr

/-- A decoded instruction: one constructor per row of spec/opcode_table.json, with the immediate where the kind has one
(spec/30_encoding.md R56). The immediate is an unsigned 4-bit number (R53), so an out-of-range one cannot be written. -/
inductive Instr where
  /-- `Add(A, imm)`, spec/41_arithmetic.md R91. -/
  | addA (imm : Nibble)
  /-- `MovBtoA`, spec/42_move.md R104. -/
  | movBtoA
  /-- `In(A)`, spec/44_io.md R121. -/
  | inA
  /-- `Mov(A, imm)`, spec/42_move.md R101. -/
  | movA (imm : Nibble)
  /-- `MovAtoB`, spec/42_move.md R103. -/
  | movAtoB
  /-- `Add(B, imm)`, spec/41_arithmetic.md R92. -/
  | addB (imm : Nibble)
  /-- `In(B)`, spec/44_io.md R122. -/
  | inB
  /-- `Mov(B, imm)`, spec/42_move.md R102. -/
  | movB (imm : Nibble)
  /-- `OutFromB`, spec/44_io.md R123. -/
  | outFromB
  /-- `OutImmediate(imm)`, spec/44_io.md R124. -/
  | outImmediate (imm : Nibble)
  /-- `JumpIfNoCarry(imm)`, spec/43_control_transfer.md R112. -/
  | jumpIfNoCarry (imm : Nibble)
  /-- `Jump(imm)`, spec/43_control_transfer.md R111. -/
  | jump (imm : Nibble)
deriving DecidableEq, Repr

/-- What the front-end hands the encoder: a kind and a number that ought to be its immediate. It may be too wide, and the
encoder then masks it (spec/30_encoding.md R58); `AbstractInstr.wellFormed` says when it is one of the 117 valid ones. -/
structure AbstractInstr where
  kind : Kind
  imm : Nat
deriving DecidableEq, Repr

/-- The decoder's one error, with the offending opcode nibble (spec/30_encoding.md R60). -/
inductive DecodeError where
  | unknownOpcode (n : Nibble)
deriving DecidableEq, Repr

/-- What the decoder answers: the error, or what was decoded (spec/30_encoding.md R59). -/
inductive Decoded (α : Type) where
  | bad (e : DecodeError)
  | good (x : α)
deriving DecidableEq, Repr

end Sys2Proof
end

