-- ==== Sys2Proof/Config.lean ====
section
/-! DEFINITION. What a configuration of the hardware fixes (spec/00_scope.md R5): the capacity of the instruction memory
and the type of the opcode map. The map's default value is `defaultOpMap` in Sys2Proof/Decode.lean; the reset value of the
output latch is in Sys2Proof/Machine/Params.lean. The spec leaves no value undefined, so there is no opaque constant here. -/

namespace Sys2Proof

/-- The instruction memory has at most 16 cells (spec/20_memory.md R31). -/
abbrev Config.capacity : Nat := 16

/-- The parameter `OPMAP`: the opcode nibble of each kind (spec/00_scope.md R5, spec/30_encoding.md R55).
`OpMap.wellFormed` says which maps the spec admits. -/
abbrev OpMap := Kind → Nibble

end Sys2Proof
end

