-- ==== Sys2Proof/Decode.lean ====
section
/-! DEFINITION. The instruction codec (spec/30_encoding.md): the fields of the byte, the opcode map, the decoder and the
encoder, both from the one map (R55). -/

namespace Sys2Proof

/-! ### The fields of the byte, format `OP4_IM4` (R51) -/

/-- The opcode field, `byte[7:4]`, which is `byte >> 4` (R51). -/
def highNibble (b : Byte) : Nibble := b.extractLsb' 4 4

/-- The operand field, `byte[3:0]`, which is `byte & 0x0F` (R51). -/
def lowNibble (b : Byte) : Nibble := b.extractLsb' 0 4

/-- `{op, low}`: the byte with `op` in bits 7 to 4 and `low` in bits 3 to 0 (R51, R58). -/
def joinNibbles (op low : Nibble) : Byte := op ++ low

/-! ### The opcode map -/

/-- The 12 kinds, in the order of spec/opcode_table.json (R56). -/
def Kind.all : List Kind :=
  [.addA, .movBtoA, .inA, .movA, .movAtoB, .addB, .inB, .movB, .outFromB, .outImmediate, .jumpIfNoCarry, .jump]

/-- The default opcode map of R57. UNVERIFIED, unsafe: the numbers are the spec's decision D1 from general knowledge
(log entry 1). -/
def defaultOpMap : OpMap
  | .addA => 0x0
  | .movBtoA => 0x1
  | .inA => 0x2
  | .movA => 0x3
  | .movAtoB => 0x4
  | .addB => 0x5
  | .inB => 0x6
  | .movB => 0x7
  | .outFromB => 0x9
  | .outImmediate => 0xB
  | .jumpIfNoCarry => 0xE
  | .jump => 0xF

/-- The operand class of each kind (R52). -/
def Kind.operandClass : Kind → OperandClass
  | .addA | .addB | .movA | .movB | .jump | .jumpIfNoCarry | .outImmediate => .imm
  | .movAtoB | .movBtoA => .nonePass
  | .inA | .inB | .outFromB => .noneZero

/-- "the kind with OPMAP(k) == n", if there is one (R59). -/
def kindOf (m : OpMap) (n : Nibble) : Option Kind := Kind.all.find? fun k => m k == n

/-! ### Instructions as a kind and an operand -/

/-- The kind of an instruction (R56). -/
def Instr.kind : Instr → Kind
  | .addA _ => .addA
  | .movBtoA => .movBtoA
  | .inA => .inA
  | .movA _ => .movA
  | .movAtoB => .movAtoB
  | .addB _ => .addB
  | .inB => .inB
  | .movB _ => .movB
  | .outFromB => .outFromB
  | .outImmediate _ => .outImmediate
  | .jumpIfNoCarry _ => .jumpIfNoCarry
  | .jump _ => .jump

/-- The operand of an instruction: its immediate, or 0 where it has none (R61). -/
def Instr.operand : Instr → Nibble
  | .addA imm | .movA imm | .addB imm | .movB imm => imm
  | .outImmediate imm | .jumpIfNoCarry imm | .jump imm => imm
  | .movBtoA | .inA | .movAtoB | .inB | .outFromB => 0

/-- The instruction of a decoded pair. The operand of a kind without an immediate is dropped: execution does not use it
(R52, spec/42_move.md R105). UNVERIFIED, unsafe for non-canonical bytes (the spec's decision D14, log entry 14). -/
def Instr.ofPair : Kind → Nibble → Instr
  | .addA, imm => .addA imm
  | .movBtoA, _ => .movBtoA
  | .inA, _ => .inA
  | .movA, imm => .movA imm
  | .movAtoB, _ => .movAtoB
  | .addB, imm => .addB imm
  | .inB, _ => .inB
  | .movB, imm => .movB imm
  | .outFromB, _ => .outFromB
  | .outImmediate, imm => .outImmediate imm
  | .jumpIfNoCarry, imm => .jumpIfNoCarry imm
  | .jump, imm => .jump imm

/-- The abstract instruction an instruction stands for (R56). -/
def Instr.toAbstract (i : Instr) : AbstractInstr := { kind := i.kind, imm := i.operand.toNat }

/-! ### The decoder -/

/-- The decoder's contract, byte to kind and operand (R59): the operand of class `NONE_ZERO` is reported as 0, every other
verbatim. -/
def decodePair (m : OpMap) (b : Byte) : Decoded (Kind × Nibble) :=
  match kindOf m (highNibble b) with
  | none => .bad (.unknownOpcode (highNibble b))
  | some k => .good (k, if k.operandClass = .noneZero then 0 else lowNibble b)

/-- The instruction a byte stands for under the map `m`, or the decoder's error (R59, R60). -/
def decodeWith (m : OpMap) (b : Byte) : Decoded Instr :=
  match decodePair m b with
  | .bad e => .bad e
  | .good (k, opnd) => .good (Instr.ofPair k opnd)

/-- The decoder under the default opcode map (R57). -/
def decode (b : Byte) : Decoded Instr := decodeWith defaultOpMap b

/-! ### The encoder -/

/-- The encoder, which masks a wide immediate and never fails (R58; spec/90_conflicts.md C2). -/
def encodeAbstract (m : OpMap) (x : AbstractInstr) : Byte :=
  joinNibbles (m x.kind) (if x.kind.operandClass = .imm then BitVec.ofNat 4 x.imm else 0)

/-- The canonical byte of an instruction under the map `m` (R58). -/
def encodeWith (m : OpMap) (i : Instr) : Byte := encodeAbstract m i.toAbstract

/-- The encoder under the default opcode map (R57). -/
def encode (i : Instr) : Byte := encodeWith defaultOpMap i

/-! ### The host's question -/

/-- The instruction the decoder reads from an opcode-table word: the instruction is the one byte `w`, bits from `nbits` up
being 0 (R50). -/
def decodeTableWord (nbits w : Nat) : Option Instr :=
  match decode (BitVec.ofNat 8 (w % 2 ^ nbits)) with
  | .bad _ => none
  | .good i => some i

end Sys2Proof
end

