-- ==== Sys2Proof/Machine/Params.lean ====
section
/-! DEFINITION. The values State.reset needs that are parameters of the hardware or are left to the caller
(spec/00_scope.md R5). -/

namespace Sys2Proof.Machine

/-- `OUT_RESET`: the output latch right after reset (spec/10_state.md R27). UNVERIFIED, unsafe: the spec's decision D5
(log entry 4). -/
def outReset : Nibble := 0

/-- The input latch in `State.reset`, before a caller has set it. DESIGN CHOICE, unsafe: the spec gives `PORT_IN` no
default (spec/10_state.md R22, decision D23; log entry 6). -/
def portInUnset : Nibble := 0

/-- The length of the instruction memory in `State.reset`, before a caller has loaded a program. DESIGN CHOICE, unsafe: the
spec has the caller supply `LEN`, and admits 0 (spec/60_exceptions.md R137; log entry 7). -/
def lenUnloaded : Fin (Config.capacity + 1) := 0

/-- What an address that the memory's list does not name holds. Representation only, safe: it is the byte the fetch supplies
past the program (spec/40_engine_cycle.md R71), and every cell of a program is recorded, a zero cell by not being listed
(DESIGN CHOICE, log entry 8). -/
def unlistedByte : Byte := 0

end Sys2Proof.Machine
end

