-- ==== Sys2Proof/Machine/State.lean ====
section
/-! DEFINITION. The state of the core (spec/10_state.md R10), with the parameters of a run that the step reads
(spec/00_scope.md R5), the ways a step can stop, and the state after reset. -/

namespace Sys2Proof.Machine

/-- The run status (spec/10_state.md R23). -/
inductive Status where
  /-- `RUN`: the engine will perform another cycle. -/
  | run
  /-- `HALT`: the halt check has fired; the only successful exit. -/
  | halt
  /-- `ABORT(n)`: the decode stage met the unassigned opcode nibble `n`. -/
  | abort (n : Nibble)
deriving DecidableEq, Repr

/-- The instruction memory `MEM`: (address, byte) pairs, addresses strictly rising, no pair holding the byte an unlisted
address holds (spec/20_memory.md R31; `Memory.wf`). -/
abbrev Memory := List Host.Cell

/-- Everything the step reads or writes. The first six fields are the spec's state (spec/10_state.md R10); the last three
are the parameters of the run, which nothing in the core writes (spec/00_scope.md R5; log entries 5 and 7). -/
structure State where
  /-- General register A (R11). -/
  a : Nibble
  /-- General register B (R11). -/
  b : Nibble
  /-- The carry flag, true for 1 (R18). -/
  cf : Bool
  /-- The program counter (R15). -/
  pc : Nibble
  /-- The output latch (R21). -/
  portOut : Nibble
  /-- The run status (R23). -/
  status : Status
  /-- `MEM`, a constant of the run (spec/20_memory.md R31, R32). -/
  mem : Memory
  /-- `LEN`, 0 to 16, a constant of the run (spec/00_scope.md R5, R6). -/
  len : Fin (Config.capacity + 1)
  /-- `PORT_IN`, the input latch, a constant of the run (R22). -/
  portIn : Nibble
deriving DecidableEq, Repr

/-- How the machine stops with a failure. -/
inductive Fault where
  /-- `UnknownOpcode(n)`, the only run-time exception (spec/60_exceptions.md R130). Raised by a step of a machine whose
  status is `ABORT(n)`: the aborting cycle itself is a next state, and the run ends there as a failure (R135, R140). Safe:
  nothing can be proved of a run past an illegal byte (log entry 9). -/
  | unknownOpcode (n : Nibble)
deriving DecidableEq, Repr

/-- What is turned away before any cycle runs. -/
inductive Refusal where
  /-- An instruction without a meaning; no arm of exec answers it. Safe. -/
  | notModelled (mnemonic : String)
  /-- `MemoryOverflow`: `boot` was given more than 16 bytes (spec/60_exceptions.md R136). Safe: such a configuration is none
  of this hardware's (spec/00_scope.md R6). -/
  | memoryOverflow
  /-- `EmptyProgram`: `assemble` was given no instruction (spec/60_exceptions.md R137). Safe: no byte has been made. -/
  | emptyProgram
deriving DecidableEq, Repr

/-- The state reset leaves, over the parameters the caller supplied: the six elements at the values of
spec/10_state.md R27, and `MEM`, `LEN` and `PORT_IN` as they are (spec/70_reset_and_hazards.md R150, R153). -/
def State.afterReset (mem : Memory) (len : Fin (Config.capacity + 1)) (portIn : Nibble) : State :=
  { a := 0, b := 0, cf := false, pc := 0, portOut := outReset, status := .run, mem := mem, len := len, portIn := portIn }

/-- The machine right after reset with nothing loaded and no input set (log entries 6 and 7). -/
def State.reset : State := State.afterReset [] lenUnloaded portInUnset

end Sys2Proof.Machine
end

