-- ==== Sys2Proof/Machine/Ops.lean ====
section
/-! DEFINITION. The named operations over memory and registers: reading and building the instruction memory, the fetch,
the register file's accessors, taking the one exception, and reset. -/

namespace Sys2Proof.Machine

/-! ### The instruction memory -/

/-- The canonical form: addresses strictly rising, and no pair that an unlisted address would answer for. -/
abbrev Memory.wf (m : Memory) : Prop := m.Pairwise (fun c d => c.1 < d.1) ∧ ∀ c ∈ m, c.2 ≠ unlistedByte

/-- The byte at an address. -/
def Memory.read : Memory → Nat → Byte
  | [], _ => unlistedByte
  | (k, v) :: rest, addr => if addr = k then v else Memory.read rest addr

/-- The memory with one cell replaced, in canonical form. Only building the memory uses it: no instruction writes memory
(spec/20_memory.md R32, R34). -/
def Memory.write : Memory → Nat → Byte → Memory
  | [], addr, byte => if byte = unlistedByte then [] else [(addr, byte)]
  | (k, v) :: rest, addr, byte =>
    if addr < k then (if byte = unlistedByte then (k, v) :: rest else (addr, byte) :: (k, v) :: rest)
    else if addr = k then (if byte = unlistedByte then rest else (addr, byte) :: rest)
    else (k, v) :: Memory.write rest addr byte

/-- The bytes of a program laid from an address upwards. -/
def Memory.ofBytesFrom : Nat → List Byte → Memory
  | _, [] => []
  | addr, byte :: rest => Memory.write (Memory.ofBytesFrom (addr + 1) rest) addr byte

/-- The memory of a program: the byte at index `i` is the cell at address `i` (spec/20_memory.md R36). -/
def Memory.ofBytes (bytes : List Byte) : Memory := Memory.ofBytesFrom 0 bytes

/-- The fetch stage: the byte at `PC`, or the synthetic zero byte at or beyond the memory's length
(spec/40_engine_cycle.md R71). -/
def fetch (s : State) : Byte := if s.pc.toNat < s.len.val then s.mem.read s.pc.toNat else 0

/-! ### The register file, the port and the status -/

/-- `x[r]` (spec/00_scope.md R8). -/
def State.readReg (s : State) : Reg → Nibble
  | .A => s.a
  | .B => s.b

/-- `x[r] <- v` (spec/00_scope.md R8). -/
def State.writeReg (s : State) : Reg → Nibble → State
  | .A, v => { s with a := v }
  | .B, v => { s with b := v }

/-- `CF <- c`. -/
def State.writeCarry (s : State) (c : Bool) : State := { s with cf := c }

/-- `PC <- target`. -/
def State.writePc (s : State) (target : Nibble) : State := { s with pc := target }

/-- `PORT_OUT <- v`. -/
def State.writePortOut (s : State) (v : Nibble) : State := { s with portOut := v }

/-- `STATUS <- st`. -/
def State.writeStatus (s : State) (st : Status) : State := { s with status := st }

/-! ### The exception and reset -/

/-- Taking `UnknownOpcode(n)`: `STATUS <- ABORT(n)` and nothing else, so `PC` still holds the address of the offending byte
(spec/40_engine_cycle.md R72, spec/60_exceptions.md R132). UNVERIFIED, unsafe: the spec's decision D8 (log entry 10). -/
def takeUnknownOpcode (n : Nibble) (s : State) : State := s.writeStatus (.abort n)

/-- Reset, the only way out of `HALT` and `ABORT(n)`: there is no return from the exception (spec/60_exceptions.md R140,
R141; spec/70_reset_and_hazards.md R150, R153, R154). -/
def resetCore (s : State) : State := State.afterReset s.mem s.len s.portIn

end Sys2Proof.Machine
end

