-- ==== Sys2Proof/Machine/Flags.lean ====
section
/-! DEFINITION. The carry flag (spec/10_state.md R18, R19) and the arithmetic that sets it (spec/41_arithmetic.md R93). -/

namespace Sys2Proof.Machine

/-- The sum before it is masked, 0 to 30 (spec/41_arithmetic.md R91). `CF` is no input of it (spec/10_state.md R20). -/
def unmaskedSum (x imm : Nibble) : Nat := x.toNat + imm.toNat

/-- `sum & 0x0F`, the value stored (spec/41_arithmetic.md R91, R93). -/
def maskedSum (x imm : Nibble) : Nibble := BitVec.ofNat 4 (unmaskedSum x imm)

/-- The flag an Add leaves: 1 if the sum does not fit, else what it was (spec/41_arithmetic.md R91). -/
def carryAfterAdd (old : Bool) (x imm : Nibble) : Bool := if unmaskedSum x imm > 15 then true else old

/-- The clear every kind but the two Adds ends with (spec/40_engine_cycle.md R74). -/
def clearCarry (s : State) : State := s.writeCarry false

end Sys2Proof.Machine
end

