-- ==== Sys2Proof/Machine/Operands.lean ====
section
/-! DEFINITION. Where an instruction takes a value from and where it puts one, and the transfer that the four moves and the
four port instructions share (spec/42_move.md, spec/44_io.md). -/

namespace Sys2Proof.Machine

/-- Where a value comes from: the immediate (spec/30_encoding.md R53), a general register, the input latch. -/
inductive Source where
  | imm (v : Nibble)
  | reg (r : Reg)
  | portIn
deriving DecidableEq, Repr

/-- Where a value goes: a general register, the output latch. -/
inductive Dest where
  | reg (r : Reg)
  | portOut
deriving DecidableEq, Repr

/-- The value of a source. Reading the input latch does not change it (spec/20_memory.md R38). -/
def readSource (s : State) : Source → Nibble
  | .imm v => v
  | .reg r => s.readReg r
  | .portIn => s.portIn

/-- The state with a value put in a destination. -/
def writeDest (s : State) : Dest → Nibble → State
  | .reg r, v => s.writeReg r v
  | .portOut, v => s.writePortOut v

/-- Read the source, write the destination, clear the carry (spec/40_engine_cycle.md R74, R75). -/
def transfer (dst : Dest) (src : Source) (s : State) : State := clearCarry (writeDest s dst (readSource s src))

end Sys2Proof.Machine
end

