-- ==== Sys2Proof/Machine/Arithmetic.lean ====
section
/-! DEFINITION. The arithmetic family (spec/41_arithmetic.md). -/

namespace Sys2Proof.Machine

/-- Add an immediate to a register: the sum masked to 4 bits, `CF` set if it did not fit and never cleared
(spec/41_arithmetic.md R90). -/
def addImmediate (r : Reg) (imm : Nibble) (s : State) : State :=
  (s.writeReg r (maskedSum (s.readReg r) imm)).writeCarry (carryAfterAdd s.cf (s.readReg r) imm)

/-- `AddA` (R91). -/
def execAddA (imm : Nibble) (s : State) : Host.Outcome State Fault Refusal := .next (addImmediate .A imm s)

/-- `AddB` (R92). -/
def execAddB (imm : Nibble) (s : State) : Host.Outcome State Fault Refusal := .next (addImmediate .B imm s)

end Sys2Proof.Machine
end

