-- ==== Sys2Proof/Machine/Control.lean ====
section
/-! DEFINITION. The control-transfer family and the branch resolver (spec/43_control_transfer.md). -/

namespace Sys2Proof.Machine

/-- The branch resolver, a function of the kind and the flag alone (R113). -/
def taken (k : Kind) (cf : Bool) : Bool :=
  match k with
  | .jump => true
  | .jumpIfNoCarry => !cf
  | .addA | .addB | .movA | .movB | .movAtoB | .movBtoA | .inA | .inB | .outFromB | .outImmediate => false

/-- The execute stage of a jump of kind `k`: `PC <- target` if taken, then the carry is cleared, after the test and in both
cases (R111, R112). The advance stage then adds 1 to `PC`, as for every instruction (R110). -/
def branch (k : Kind) (target : Nibble) (s : State) : State :=
  clearCarry (if taken k s.cf then s.writePc target else s)

/-- `Jump` (R111). -/
def execJump (imm : Nibble) (s : State) : Host.Outcome State Fault Refusal := .next (branch .jump imm s)

/-- `JumpIfNoCarry` (R112). -/
def execJumpIfNoCarry (imm : Nibble) (s : State) : Host.Outcome State Fault Refusal := .next (branch .jumpIfNoCarry imm s)

end Sys2Proof.Machine
end

