-- ==== Sys2Proof/Machine/Move.lean ====
section
/-! DEFINITION. The move family (spec/42_move.md). -/

namespace Sys2Proof.Machine

/-- `MovA` (R101). -/
def execMovA (imm : Nibble) (s : State) : Host.Outcome State Fault Refusal := .next (transfer (.reg .A) (.imm imm) s)

/-- `MovB` (R102). -/
def execMovB (imm : Nibble) (s : State) : Host.Outcome State Fault Refusal := .next (transfer (.reg .B) (.imm imm) s)

/-- `MovAtoB`: B receives A (R103; the direction is spec/90_conflicts.md C3, log entry 17). -/
def execMovAtoB (s : State) : Host.Outcome State Fault Refusal := .next (transfer (.reg .B) (.reg .A) s)

/-- `MovBtoA`: A receives B (R104). -/
def execMovBtoA (s : State) : Host.Outcome State Fault Refusal := .next (transfer (.reg .A) (.reg .B) s)

end Sys2Proof.Machine
end

