-- ==== Sys2Proof/Machine/PortIO.lean ====
section
/-! DEFINITION. The input and output family (spec/44_io.md). -/

namespace Sys2Proof.Machine

/-- `InA` (R121). -/
def execInA (s : State) : Host.Outcome State Fault Refusal := .next (transfer (.reg .A) .portIn s)

/-- `InB` (R122). -/
def execInB (s : State) : Host.Outcome State Fault Refusal := .next (transfer (.reg .B) .portIn s)

/-- `OutFromB` (R123). -/
def execOutFromB (s : State) : Host.Outcome State Fault Refusal := .next (transfer .portOut (.reg .B) s)

/-- `OutImmediate` (R124). -/
def execOutImmediate (imm : Nibble) (s : State) : Host.Outcome State Fault Refusal := .next (transfer .portOut (.imm imm) s)

end Sys2Proof.Machine
end

