-- ==== Sys2Proof/Machine/Dispatch.lean ====
section
/-! DEFINITION. The execute stage: one arm per instruction kind (spec/40_engine_cycle.md R73). -/

namespace Sys2Proof.Machine

/-- The execute stage, which cannot fail (spec/40_engine_cycle.md R73); fetch, decode, advance and the halt check are in
Sys2Proof/Machine/Cycle.lean. -/
def exec (i : Instr) (s : State) : Host.Outcome State Fault Refusal :=
  match i with
  | .addA imm => Sys2Proof.Machine.execAddA imm s
  | .movBtoA => Sys2Proof.Machine.execMovBtoA s
  | .inA => Sys2Proof.Machine.execInA s
  | .movA imm => Sys2Proof.Machine.execMovA imm s
  | .movAtoB => Sys2Proof.Machine.execMovAtoB s
  | .addB imm => Sys2Proof.Machine.execAddB imm s
  | .inB => Sys2Proof.Machine.execInB s
  | .movB imm => Sys2Proof.Machine.execMovB imm s
  | .outFromB => Sys2Proof.Machine.execOutFromB s
  | .outImmediate imm => Sys2Proof.Machine.execOutImmediate imm s
  | .jumpIfNoCarry imm => Sys2Proof.Machine.execJumpIfNoCarry imm s
  | .jump imm => Sys2Proof.Machine.execJump imm s

end Sys2Proof.Machine
end

