-- ==== Sys2Proof/Machine/Cycle.lean ====
section
/-! DEFINITION. The fetch-decode-execute-advance cycle and the halt rule (spec/40_engine_cycle.md). -/

namespace Sys2Proof.Machine

/-- The advance stage: `PC <- (PC + 1) mod 16`, for every kind, the two jumps included (R76). UNVERIFIED, unsafe: that 15
becomes 0 is the spec's decision D3 (log entry 2). -/
def advance (s : State) : State := s.writePc (s.pc + 1)

/-- The halt condition `LEN <= PC + 1`, on natural numbers: the look-ahead is not masked (R77, R78). UNVERIFIED, unsafe: the
width of the comparison is the spec's decision D4 (log entry 3). -/
def haltsAt (len : Fin (Config.capacity + 1)) (pc : Nibble) : Bool := decide (len.val ≤ pc.toNat + 1)

/-- The halt check, made on the program counter the advance stage has just written (R77). -/
def haltCheck (s : State) : State := if haltsAt s.len s.pc then s.writeStatus .halt else s

/-- The fourth stage, advance-or-halt (R70). -/
def advanceOrHalt (s : State) : State := haltCheck (advance s)

/-- One cycle under the opcode map `m`: fetch, decode, execute, advance-or-halt; an undecodable byte aborts before execute
and leaves everything but the status (R70, R72). -/
def cycle (m : OpMap) (s : State) : Host.Outcome State Fault Refusal :=
  match decodeWith m (fetch s) with
  | .bad (.unknownOpcode n) => .next (takeUnknownOpcode n s)
  | .good i =>
    match exec i s with
    | .next t => .next (advanceOrHalt t)
    | .fault r => .fault r
    | .refused r => .refused r

/-- One step under the opcode map `m`: a cycle if the status is `RUN`; no cycle happens otherwise, and the state stays as it
is (R79). A halted machine, whose run has ended in success, answers itself; an aborted one answers the fault its run has
ended in (spec/60_exceptions.md R135; DESIGN CHOICE, safe, log entry 9). -/
def stepWith (m : OpMap) (s : State) : Host.Outcome State Fault Refusal :=
  match s.status with
  | .run => cycle m s
  | .halt => .next s
  | .abort n => .fault (.unknownOpcode n)

end Sys2Proof.Machine
end

