-- ==== Sys2Proof/WellFormed.lean ====
section
/-! DEFINITION. What is checked before a run: the opcode map, the abstract instructions a front-end hands over, and the
length of a program. A decoded `Instr` needs no check, since its immediate is 4 bits by its type (spec/30_encoding.md R58). -/

namespace Sys2Proof

/-- The maps the spec admits (spec/30_encoding.md R55): no two kinds share a nibble, and nibble 0 is assigned. -/
abbrev OpMap.wellFormed (m : OpMap) : Prop := (Kind.all.map m).Nodup ∧ (0 : Nibble) ∈ Kind.all.map m

/-- The 117 valid abstract instructions (spec/30_encoding.md R61): an immediate of 4 bits where the kind has one, and none
(written 0) where it has not. -/
abbrev AbstractInstr.wellFormed (x : AbstractInstr) : Prop :=
  if x.kind.operandClass = .imm then x.imm < 16 else x.imm = 0

/-- The byte sequences of which an instruction memory can be built (spec/60_exceptions.md R136). -/
abbrev programFits (bytes : List Byte) : Prop := bytes.length ≤ Config.capacity

/-- What the assembler takes (spec/60_exceptions.md R137, spec/30_encoding.md R65): at least one instruction, each valid. -/
abbrev sourceWellFormed (xs : List AbstractInstr) : Prop := xs ≠ [] ∧ ∀ x ∈ xs, x.wellFormed

end Sys2Proof
end

