-- ==== Sys2Proof/Machine/Load.lean ====
section
/-! DEFINITION. The caller's part before the first cycle (spec/70_reset_and_hazards.md R155): assembling, building the
memory, setting the input latch, reset. -/

namespace Sys2Proof.Machine

/-- The assembler's part that belongs to the codec: no instruction at all is refused before any is encoded
(spec/60_exceptions.md R137); the encoder cannot fail (R138). -/
def assemble (m : OpMap) (xs : List AbstractInstr) : Host.Outcome (List Byte) Fault Refusal :=
  if xs = [] then .refused .emptyProgram else .next (xs.map (encodeAbstract m))

/-- Build `MEM` from the bytes, refusing more than 16, set `PORT_IN`, reset (spec/70_reset_and_hazards.md R155,
spec/60_exceptions.md R136). -/
def boot (bytes : List Byte) (portIn : Nibble) : Host.Outcome State Fault Refusal :=
  if h : programFits bytes then
    .next (State.afterReset (Memory.ofBytes bytes) ⟨bytes.length, Nat.lt_succ_of_le h⟩ portIn)
  else .refused .memoryOverflow

/-- The length of a memory that has the cell at `pc`: what it is, or just enough. -/
def lenCovering (len : Fin (Config.capacity + 1)) (pc : Nibble) : Fin (Config.capacity + 1) :=
  if pc.toNat < len.val then len else ⟨pc.toNat + 1, Nat.succ_lt_succ pc.isLt⟩

/-- The state with a byte in the cell that the next cycle fetches: the cell at `PC`, a memory long enough to have it, and
the status `RUN` (DESIGN CHOICE, log entry 16). -/
def placeForFetch (s : State) (byte : Byte) : State :=
  { s with mem := s.mem.write s.pc.toNat byte, len := lenCovering s.len s.pc, status := .run }

end Sys2Proof.Machine
end

