-- ==== Sys2Proof/Machine/Step.lean ====
section
/-! DEFINITION. The step of the machine under the default opcode map, and the host's placing of an instruction. -/

namespace Sys2Proof.Machine

/-- One step of this hardware: the cycle of spec/40_engine_cycle.md R70 under the map of spec/30_encoding.md R57. -/
def step (s : State) : Host.Outcome State Fault Refusal := stepWith defaultOpMap s

/-- The state whose next step fetches and runs the one-byte instruction `w`, bits from `nbits` up being 0. It stands for the
caller's load of a program (spec/70_reset_and_hazards.md R155; log entries 7 and 16). -/
def State.withFetchWord (s : State) (nbits w : Nat) : State := placeForFetch s (BitVec.ofNat 8 (w % 2 ^ nbits))

end Sys2Proof.Machine
end

