-- ==== Sys2Proof/Machine/Interface.lean ====
section
/-! DEFINITION. The logical interface (spec/00_scope.md R7): what an observer reads of the core. -/

namespace Sys2Proof.Machine

/-- The outputs of the core, readable by an observer at any time (spec/00_scope.md R7, spec/10_state.md R26). `imem_addr` is
the program counter, and so is `pc`. -/
structure Outputs where
  imemAddr : Nibble
  portOut : Nibble
  regA : Nibble
  regB : Nibble
  carry : Bool
  pc : Nibble
  status : Status
deriving DecidableEq, Repr

/-- What the core shows in a state. -/
def State.outputs (s : State) : Outputs :=
  { imemAddr := s.pc, portOut := s.portOut, regA := s.a, regB := s.b, carry := s.cf, pc := s.pc, status := s.status }

end Sys2Proof.Machine
end

