-- ==== Sys2Proof/Safety.lean ====
section
/-! DEFINITION. What a run is and what holds along every run, in the terms the statements use. -/

namespace Sys2Proof.Machine

/-- A state a run starts from: the reset state over some memory, length and input latch (spec/40_engine_cycle.md R82). -/
structure IsLaunch (s : State) : Prop where
  a : s.a = 0
  b : s.b = 0
  cf : s.cf = false
  pc : s.pc = 0
  portOut : s.portOut = outReset
  status : s.status = .run

/-- The memory is in canonical form and lists only cells that exist (spec/20_memory.md R31, R35). -/
abbrev State.memoryOk (s : State) : Prop := s.mem.wf ∧ ∀ c ∈ s.mem, c.1 < s.len.val

/-- What holds of every state of every run under the opcode map `m`. -/
structure Inv (m : OpMap) (s : State) : Prop where
  /-- The memory keeps its canonical form. -/
  memoryOk : s.memoryOk
  /-- The next fetch is at address 0 or before the last cell (spec/40_engine_cycle.md R81). -/
  runBeforeLast : s.status = .run → s.pc = 0 ∨ s.pc.toNat + 2 ≤ s.len.val
  /-- A halted machine is where the halt condition holds (spec/40_engine_cycle.md R77). -/
  haltAtEnd : s.status = .halt → s.len.val ≤ s.pc.toNat + 1
  /-- An aborted machine stands at a byte with the unassigned nibble it reports (spec/60_exceptions.md R132). -/
  abortAtByte : ∀ n, s.status = .abort n → highNibble (fetch s) = n ∧ ∀ k, m k ≠ n

/-- `k` steps under the opcode map `m`, stopping at the first fault or refusal (`Host.Core.run`, with the map as an
argument). -/
def runWith (m : OpMap) : Nat → State → Host.Outcome State Fault Refusal
  | 0, s => .next s
  | k + 1, s =>
    match stepWith m s with
    | .next t => runWith m k t
    | .fault r => .fault r
    | .refused r => .refused r

/-- The execute stages of some instructions one after another, with no advance and no halt check between them, as the
source's tests call them (spec/44_io.md R125). -/
def execAll : List Instr → State → Host.Outcome State Fault Refusal
  | [], s => .next s
  | i :: rest, s =>
    match exec i s with
    | .next t => execAll rest t
    | .fault r => .fault r
    | .refused r => .refused r

end Sys2Proof.Machine
end

