-- ==== Sys2Proof/Certificates/Slice0/Obligations.lean ====
section
/-! DEFINITION. The statements about this machine. The step's map argument `m` ranges over every opcode map the statement
needs (spec/30_encoding.md R57), so that no statement but those that say so rests on the default nibbles. -/

open Sys2Proof Sys2Proof.Machine

/-! ### The execute stage, instruction by instruction: each of the 12 completes, with this result -/

/-- R90. `AddA` and `AddB` complete in every state: the sum masked to 4 bits goes to the register that was added to, `CF`
becomes 1 if the sum exceeds 15 and keeps its value otherwise, and nothing else changes. -/
def Obligations.AddsStoreTheMaskedSumAndOnlySetCarry : Prop :=
  ∀ (imm : Nibble) (s : State),
    exec (.addA imm) s = .next { s with
      a := BitVec.ofNat 4 ((s.a.toNat + imm.toNat) % 16),
      cf := if 15 < s.a.toNat + imm.toNat then true else s.cf } ∧
    exec (.addB imm) s = .next { s with
      b := BitVec.ofNat 4 ((s.b.toNat + imm.toNat) % 16),
      cf := if 15 < s.b.toNat + imm.toNat then true else s.cf }

/-- R100. The four moves complete in every state: an immediate, or the other register's value, goes to the named register,
`CF` becomes 0, and nothing else changes. `MovAtoB` gives B the value of A. -/
def Obligations.MovesCopyExactlyAndClearCarry : Prop :=
  ∀ (imm : Nibble) (s : State),
    exec (.movA imm) s = .next { s with a := imm, cf := false } ∧
    exec (.movB imm) s = .next { s with b := imm, cf := false } ∧
    exec .movAtoB s = .next { s with b := s.a, cf := false } ∧
    exec .movBtoA s = .next { s with a := s.b, cf := false }

/-- R120. The four port instructions complete in every state: the input latch goes to the named register, or B or an
immediate to the output latch, `CF` becomes 0, and nothing else changes, the input latch included. -/
def Obligations.PortInstructionsCopyAndClearCarry : Prop :=
  ∀ (imm : Nibble) (s : State),
    exec .inA s = .next { s with a := s.portIn, cf := false } ∧
    exec .inB s = .next { s with b := s.portIn, cf := false } ∧
    exec .outFromB s = .next { s with portOut := s.b, cf := false } ∧
    exec (.outImmediate imm) s = .next { s with portOut := imm, cf := false }

/-- The execute stage of the two jumps (spec/43_control_transfer.md section 2) completes in every state: `Jump` writes its
immediate to `PC`, `JumpIfNoCarry` does so if `CF` is 0, both then clear `CF`, and nothing else changes. -/
def Obligations.JumpsWritePcAndClearCarry : Prop :=
  ∀ (imm : Nibble) (s : State),
    exec (.jump imm) s = .next { s with pc := imm, cf := false } ∧
    exec (.jumpIfNoCarry imm) s = .next { s with pc := if s.cf = false then imm else s.pc, cf := false }

/-! ### The execute stage, over all instructions -/

/-- R113. The resolver takes `Jump` always, `JumpIfNoCarry` exactly when `CF` is 0, nothing else; and the execute stage
leaves `PC` at the immediate exactly as the resolver says on the flag the instruction starts with. -/
def Obligations.BranchTakenExactlyWhenResolved : Prop :=
  (∀ (k : Kind) (cf : Bool), taken k cf = true ↔ k = .jump ∨ (k = .jumpIfNoCarry ∧ cf = false)) ∧
  ∀ (i : Instr) (s t : State), exec i s = .next t → t.pc = if taken i.kind s.cf then i.operand else s.pc

/-- R19. Who writes `CF`: the Adds set it when the unmasked sum exceeds 15 and otherwise leave it, each other kind writes 0.
Who reads it: only `JumpIfNoCarry`, so that every other instruction does the same to all other fields whatever `CF` was. -/
def Obligations.CarryWrittenByAllReadByOneJump : Prop :=
  (∀ (i : Instr) (s t : State), exec i s = .next t →
    (i.kind = .addA → t.cf = if 15 < s.a.toNat + i.operand.toNat then true else s.cf) ∧
    (i.kind = .addB → t.cf = if 15 < s.b.toNat + i.operand.toNat then true else s.cf) ∧
    (i.kind ≠ .addA → i.kind ≠ .addB → t.cf = false)) ∧
  ∀ (i : Instr) (s t : State) (c : Bool), i.kind ≠ .jumpIfNoCarry → exec i s = .next t →
    ∃ u, exec i { s with cf := c } = .next u ∧ u = { t with cf := u.cf }

/-- R12. Which instructions touch which register. A register that the instruction does not write keeps its value; a register
that it does not read has no influence: with another value in it, every other field, and that register too if it is written,
comes out the same. No instruction outputs A: `PORT_OUT` never depends on it. -/
def Obligations.RegistersTouchedExactlyAsListed : Prop :=
  ∀ (i : Instr) (s t : State), exec i s = .next t →
    (i.kind ∉ [.addA, .movA, .movBtoA, .inA] → t.a = s.a) ∧
    (i.kind ∉ [.addB, .movB, .movAtoB, .inB] → t.b = s.b) ∧
    (i.kind ∉ [.addA, .movAtoB] → ∀ v : Nibble, ∃ u, exec i { s with a := v } = .next u ∧ u = { t with a := u.a } ∧
      (i.kind ∈ [.movA, .movBtoA, .inA] → u.a = t.a)) ∧
    (i.kind ∉ [.addB, .movBtoA, .outFromB] → ∀ v : Nibble, ∃ u, exec i { s with b := v } = .next u ∧
      u = { t with b := u.b } ∧ (i.kind ∈ [.movB, .movAtoB, .inB] → u.b = t.b)) ∧
    (∀ v : Nibble, ∃ u, exec i { s with a := v } = .next u ∧ u.portOut = t.portOut)

/-- R73. No arm of the execute stage can fail; none writes `STATUS`, the memory (every address reads as before), its length
or the input latch; and none reads the memory: over any other memory and length it does the same. -/
def Obligations.ExecuteNeverFailsNorTouchesMemory : Prop :=
  ∀ (i : Instr) (s : State), ∃ t, exec i s = .next t ∧ t.status = s.status ∧
    t.mem = s.mem ∧ (∀ addr, t.mem.read addr = s.mem.read addr) ∧ t.len = s.len ∧ t.portIn = s.portIn ∧
    ∀ (mem : Memory) (len : Fin (Config.capacity + 1)),
      exec i { s with mem := mem, len := len } = .next { t with mem := mem, len := len }

/-- R43. The port's two latches are independent: the input latch is never written and is read by `InA` and `InB` only; the
output latch is written by `OutFromB` and `OutImmediate` only and read by nothing. -/
def Obligations.PortLatchesAreIndependent : Prop :=
  ∀ (i : Instr) (s t : State), exec i s = .next t →
    t.portIn = s.portIn ∧
    (i.kind ∉ [.inA, .inB] → ∀ v : Nibble, exec i { s with portIn := v } = .next { t with portIn := v }) ∧
    (i.kind ∉ [.outFromB, .outImmediate] → t.portOut = s.portOut) ∧
    ∀ v : Nibble, ∃ u, exec i { s with portOut := v } = .next u ∧ u = { t with portOut := u.portOut } ∧
      (i.kind ∉ [.outFromB, .outImmediate] → u.portOut = v) ∧
      (i.kind ∈ [.outFromB, .outImmediate] → u.portOut = t.portOut)

/-- R162. The carry is sticky across Adds: from a state with `CF` = 1, any number of Adds completes and leaves `CF` = 1 and
`PC` as it was, and a `JumpIfNoCarry` executed next is not taken; any instruction that is no Add leaves `CF` = 0. -/
def Obligations.CarrySurvivesAnyNumberOfAdds : Prop :=
  ∀ (adds : List Instr) (s : State), (∀ i ∈ adds, i.kind = .addA ∨ i.kind = .addB) → s.cf = true →
    ∃ t, execAll adds s = .next t ∧ t.cf = true ∧ t.pc = s.pc ∧
      (∀ imm : Nibble, exec (.jumpIfNoCarry imm) t = .next { t with cf := false }) ∧
      ∀ i : Instr, i.kind ≠ .addA → i.kind ≠ .addB → ∃ u, exec i t = .next u ∧ u.cf = false

/-! ### The codec -/

/-- Decode and encode agree under every admissible opcode map: every instruction, with every immediate, comes back from its
canonical byte, and so do the kind and the operand of every valid abstract instruction (spec/30_encoding.md section 4). -/
def Obligations.DecodeOfEncodeIsIdentityForEveryMap : Prop :=
  ∀ m : OpMap, m.wellFormed →
    (∀ i : Instr, decodeWith m (encodeWith m i) = .good i) ∧
    ∀ x : AbstractInstr, x.wellFormed →
      decodePair m (encodeAbstract m x) = .good (x.kind, BitVec.ofNat 4 x.imm) ∧ (BitVec.ofNat 4 x.imm).toNat = x.imm

/-- R59, R60. The decoder is total: a byte whose opcode nibble some kind has decodes to that kind and to its low nibble
verbatim, or to 0 for `InA`, `InB`, `OutFromB`; any other byte is refused with its opcode nibble, and nothing else is. -/
def Obligations.DecoderFollowsTheOpcodeMap : Prop :=
  ∀ m : OpMap, m.wellFormed → ∀ b : Byte,
    (∀ k, m k = highNibble b →
      decodePair m b = .good (k, if k = .inA ∨ k = .inB ∨ k = .outFromB then 0 else lowNibble b)) ∧
    (∀ n, decodePair m b = .bad (.unknownOpcode n) ↔ n = highNibble b ∧ ∀ k, m k ≠ n)

/-- R58. The encoder puts the kind's nibble above the immediate's low 4 bits, dropping the rest without an error, or above 0
for a kind without an immediate. -/
def Obligations.EncoderMasksTheImmediate : Prop :=
  ∀ (m : OpMap) (x : AbstractInstr),
    (encodeAbstract m x).toNat = (m x.kind).toNat * 16 + (if x.kind.operandClass = .imm then x.imm % 16 else 0)

/-- Re-encoding what a byte decodes to gives the byte back exactly when the byte is canonical: its kind has an immediate, or
its low nibble is 0 (the converse in spec/30_encoding.md R61, which the spec marks as derived). -/
def Obligations.ReencodingRestoresExactlyCanonicalBytes : Prop :=
  ∀ m : OpMap, m.wellFormed → ∀ (b : Byte) (i : Instr), decodeWith m b = .good i →
    (encodeWith m i = b ↔ i.kind.operandClass = .imm ∨ lowNibble b = 0)

/-- A non-canonical byte executes exactly as the byte with a zero low nibble: a step over either is the same but for the
memory that holds them (spec/30_encoding.md R62; for the two register moves the spec's decision D14, log entry 14). -/
def Obligations.LowNibbleOfImmediatelessKindsIsIgnored : Prop :=
  ∀ (m : OpMap) (s t : State) (mem : Memory) (i : Instr),
    highNibble (fetch { s with mem := mem }) = highNibble (fetch s) →
    decodeWith m (fetch s) = .good i → i.kind.operandClass ≠ .imm → stepWith m s = .next t →
    stepWith m { s with mem := mem } = .next { t with mem := mem }

/-- The synthetic zero byte decodes under every admissible map, with operand 0 (spec/30_encoding.md R55), and the default map
is admissible, where it is `Add(A, 0)` (the default map is the spec's decision D1, log entry 1). -/
def Obligations.SyntheticZeroByteAlwaysDecodes : Prop :=
  (∀ m : OpMap, m.wellFormed → ∃ k, m k = 0 ∧ decodePair m 0 = .good (k, 0)) ∧
  defaultOpMap.wellFormed ∧ decode 0 = .good (.addA 0)

/-- Under the default map exactly the opcode nibbles 8, 10, 12 and 13 are refused, whatever the low nibble (spec/30_encoding.md
R63; the nibbles are the spec's decision D1, log entry 1). -/
def Obligations.DefaultMapRefusesExactlyFourNibbles : Prop :=
  ∀ b : Byte, decode b = .bad (.unknownOpcode (highNibble b)) ↔ highNibble b ∈ [8, 10, 12, 13]

/-- One written-out byte of each family decodes to the instruction it stands for (the rows of spec/opcode_table.json; the
nibbles are the spec's decision D1, log entry 1). -/
def Obligations.WrittenBytesDecodeToTheirInstructions : Prop :=
  decode 0b00001111 = .good (.addA 15) ∧ decode 0b01010111 = .good (.addB 7) ∧ decode 0b00111101 = .good (.movA 13) ∧
  decode 0b00010000 = .good .movBtoA ∧ decode 0b01000101 = .good .movAtoB ∧ decode 0b00100110 = .good .inA ∧
  decode 0b10010000 = .good .outFromB ∧ decode 0b10110111 = .good (.outImmediate 7) ∧
  decode 0b11100000 = .good (.jumpIfNoCarry 0) ∧ decode 0b11110010 = .good (.jump 2)

/-! ### The cycle -/

/-- The fetch reads the cell at `PC` where there is one and gives a zero byte at or beyond the memory's length; that byte
decodes under every admissible map; and in a run over a memory with a cell the fetch of a running machine never falls back on
it (spec/40_engine_cycle.md R71; its last clause is R81 (d), which the spec marks as derived, and for `PC` = 15 the spec's
decision D4, log entry 3). -/
def Obligations.FetchReadsTheCellOrZero : Prop :=
  (∀ s : State,
    (s.pc.toNat < s.len.val → fetch s = s.mem.read s.pc.toNat) ∧ (s.len.val ≤ s.pc.toNat → fetch s = 0)) ∧
  (∀ m : OpMap, m.wellFormed → ∃ i, decodeWith m 0 = .good i) ∧
  ∀ (m : OpMap) (s t : State) (k : Nat), IsLaunch s → 1 ≤ s.len.val → runWith m k s = .next t → t.status = .run →
    t.pc.toNat < t.len.val

/-- A step runs the decoded instruction. In a running machine whose fetched byte decodes to `i` (every `Instr` is well formed
by its type), the step is what `exec i` answers, then `PC` plus 1, then `HALT` if the length is at most that plus 1
(spec/40_engine_cycle.md sections 1 to 6; the wrap at 15 and the width of the comparison are the spec's decisions D3 and D4,
log entries 2 and 3). The machine's own step is this one under the default map. -/
def Obligations.StepRunsTheDecodedInstruction : Prop :=
  (∀ s : State, step s = stepWith defaultOpMap s) ∧
  ∀ (m : OpMap) (s t : State) (i : Instr), s.status = .run → decodeWith m (fetch s) = .good i → exec i s = .next t →
    stepWith m s = .next { t with
      pc := t.pc + 1, status := if s.len.val ≤ (t.pc + 1).toNat + 1 then .halt else .run }

/-- An undecodable byte aborts: the aborting cycle writes `ABORT(n)` and nothing else, `PC` staying at the byte, and the next
step is the fault `UnknownOpcode(n)` (spec/60_exceptions.md section 1; that nothing else changes is the spec's decision D8,
log entry 10; the fault is the model's choice, log entry 9). -/
def Obligations.UndecodableByteAbortsAndChangesNothingElse : Prop :=
  ∀ (m : OpMap) (s : State), s.status = .run → (∀ k, m k ≠ highNibble (fetch s)) →
    stepWith m s = .next { s with status := .abort (highNibble (fetch s)) } ∧
    stepWith m { s with status := .abort (highNibble (fetch s)) } = .fault (.unknownOpcode (highNibble (fetch s)))

/-- A machine that has ended performs no cycle: a halted one stays as it is for any number of steps, an aborted one answers its
fault (spec/40_engine_cycle.md section 7; that the one is a next state and the other a fault is the model's choice, log
entry 9). -/
def Obligations.EndedMachinePerformsNoCycle : Prop :=
  ∀ (m : OpMap) (s : State),
    (s.status = .halt → ∀ k, runWith m k s = .next s) ∧
    (∀ n, s.status = .abort n → ∀ k, runWith m (k + 1) s = .fault (.unknownOpcode n))

/-- R77. After a cycle that does not abort the machine has halted exactly if the length is at most the incremented `PC` plus
1, and it runs on exactly if the next instruction is neither the last cell nor beyond it. -/
def Obligations.HaltsExactlyWhenLookAheadReachesLength : Prop :=
  ∀ (m : OpMap) (s t : State), s.status = .run → stepWith m s = .next t → (∀ n, t.status ≠ .abort n) →
    (t.status = .halt ↔ t.len.val ≤ t.pc.toNat + 1) ∧ (t.status = .run ↔ t.pc.toNat + 2 ≤ t.len.val)

/-- The look-ahead is not reduced modulo 16 (the spec's decision D4, log entry 3): a cycle that leaves `PC` = 15 has halted
whatever the length, and one that leaves `PC` = 0 has halted exactly if the length is at most 1. -/
def Obligations.CounterFifteenAlwaysHalts : Prop :=
  ∀ (m : OpMap) (s t : State), s.status = .run → stepWith m s = .next t → (∀ n, t.status ≠ .abort n) →
    (t.pc = 15 → t.status = .halt) ∧ (t.pc = 0 → (t.status = .halt ↔ t.len.val ≤ 1))

/-- Every cycle that executes an instruction adds 1 to `PC` modulo 16, the jumps included: the next `PC` is one past the
immediate of a taken jump, and one past the instruction's own address otherwise (spec/40_engine_cycle.md section 5; the wrap is
the spec's decision D3, log entry 2). -/
def Obligations.EveryInstructionAdvancesPcByOne : Prop :=
  ∀ (m : OpMap) (s t : State) (i : Instr), s.status = .run → decodeWith m (fetch s) = .good i → stepWith m s = .next t →
    t.pc.toNat = ((if taken i.kind s.cf then i.operand else s.pc).toNat + 1) % 16

/-- Where a taken jump leads, for every immediate and length: at most 14, the machine is at the immediate plus 1 and runs on
exactly if the immediate plus 3 is at most the length; at 15, the machine is at 0 and runs on exactly if the length is at least
2; nothing else changes but `CF`, which is cleared (spec/43_control_transfer.md R115, which the spec marks as derived; the
immediate 15 rests on its decision D3, log entry 2, and the halt at the immediate 14 on its D4, log entry 3). -/
def Obligations.TakenJumpLandsPastItsImmediateOrHalts : Prop :=
  ∀ (m : OpMap) (s : State) (i : Instr), s.status = .run → decodeWith m (fetch s) = .good i → taken i.kind s.cf = true →
    ∃ t, stepWith m s = .next t ∧ t = { s with pc := t.pc, cf := false, status := t.status } ∧
      (i.operand.toNat ≤ 14 → t.pc.toNat = i.operand.toNat + 1 ∧
        t.status = if i.operand.toNat + 3 ≤ s.len.val then .run else .halt) ∧
      (i.operand = 15 → t.pc = 0 ∧ t.status = if 2 ≤ s.len.val then .run else .halt)

/-- A jump that lands on itself before the last cell runs for ever: after any number of steps but none, the state is the same
with `CF` cleared, still running (spec/43_control_transfer.md R116 (a), which the spec marks as derived; the case of address 0
rests on its decision D3, log entry 2). -/
def Obligations.JumpOntoItselfRunsForEver : Prop :=
  ∀ (m : OpMap) (s : State), s.status = .run → decodeWith m (fetch s) = .good (.jump (s.pc - 1)) →
    s.pc.toNat + 2 ≤ s.len.val → ∀ k, runWith m (k + 1) s = .next { s with cf := false }

/-- `JumpIfNoCarry` consumes the flag it tests: after it `CF` is 0, taken or not, and a second one executed directly after it is
taken, which leaves `PC` one past its immediate (spec/70_reset_and_hazards.md R164 says that it is taken; that the immediate 15
leaves `PC` = 0 is the wrap, the spec's decision D3, log entry 2). -/
def Obligations.SecondJumpIfNoCarryIsAlwaysTaken : Prop :=
  ∀ (m : OpMap) (s t : State) (x : Nibble), s.status = .run → decodeWith m (fetch s) = .good (.jumpIfNoCarry x) →
    stepWith m s = .next t →
    t.cf = false ∧
    ∀ y : Nibble, t.status = .run → decodeWith m (fetch t) = .good (.jumpIfNoCarry y) →
      ∃ u, stepWith m t = .next u ∧ u.pc = y + 1 ∧ u.cf = false

/-- Every running or halted machine steps to a next state, over every memory, length and input latch; the machine never refuses,
and faults only when its run has already aborted (spec/60_exceptions.md R133; that a cycle is defined on every state is the
spec's decision D15, log entry 13; that a step of a halted machine is a next state and one of an aborted machine a fault is the
model's choice, log entry 9). -/
def Obligations.StepIsTotalAndNeverRefuses : Prop :=
  ∀ (m : OpMap) (s : State),
    (∃ t, stepWith m s = .next t) ∧ (∀ n, s.status ≠ .abort n) ∨
    ∃ n, s.status = .abort n ∧ stepWith m s = .fault (.unknownOpcode n)

/-- A step changes the output latch only by executing `OutFromB` or `OutImmediate` (spec/10_state.md section 5). -/
def Obligations.OutputLatchChangesOnlyByOutInstructions : Prop :=
  ∀ (m : OpMap) (s t : State), stepWith m s = .next t → t.portOut ≠ s.portOut →
    ∃ i, decodeWith m (fetch s) = .good i ∧ (i = .outFromB ∧ t.portOut = s.b ∨ i = .outImmediate t.portOut)

/-- R33. The only access to the memory is the fetch at `PC`: over another memory that gives the same byte there, a step does the
same, and no step changes the memory. -/
def Obligations.StepSeesMemoryOnlyThroughTheFetch : Prop :=
  ∀ (m : OpMap) (s t : State), stepWith m s = .next t →
    t.mem = s.mem ∧ ∀ mem : Memory, mem.read s.pc.toNat = s.mem.read s.pc.toNat →
      stepWith m { s with mem := mem } = .next { t with mem := mem }

/-! ### Runs -/

/-- The memory does not change along a run, so every fetch of an address in one run returns the same byte
(spec/20_memory.md R42); nor does its length, nor the input latch (that the latch is constant during a run is the spec's
decision D6, log entry 5). -/
def Obligations.EveryFetchOfAnAddressInARunIsTheSame : Prop :=
  ∀ (m : OpMap) (s t u : State) (j k : Nat), runWith m j s = .next t → runWith m k s = .next u →
    (∀ addr, t.mem.read addr = s.mem.read addr) ∧ t.mem = s.mem ∧ t.len = s.len ∧ t.portIn = s.portIn ∧
    (t.pc = u.pc → fetch t = fetch u)

/-- In a run over a memory of two or more cells the last cell is never fetched: a machine that runs on stands before it, and so
does one that aborted, so that an illegal last byte never aborts. Nothing is ever fetched at address 15 (spec/40_engine_cycle.md
R81, which the spec marks as derived; that `PC` = 15 always halts is its decision D4, log entry 3; that an aborted machine stands
at the byte it fetched is its D8, log entry 10). -/
def Obligations.LastCellIsNeverFetched : Prop :=
  ∀ (m : OpMap) (s t : State) (k : Nat), IsLaunch s → runWith m k s = .next t → t.status ≠ .halt →
    t.pc ≠ 15 ∧ (2 ≤ s.len.val → t.pc.toNat + 1 < s.len.val)

/-- The last byte of a memory of two or more cells is irrelevant: two runs that differ only in it show the same outputs after any
number of steps (spec/70_reset_and_hazards.md R161, the pad byte; for 16 cells, whose last is at address 15, by the spec's
decision D4, log entry 3). -/
def Obligations.LastByteNeverInfluencesARun : Prop :=
  ∀ (m : OpMap) (s : State) (mem : Memory) (k : Nat) (t : State), IsLaunch s → 2 ≤ s.len.val →
    (∀ addr, addr + 1 < s.len.val → mem.read addr = s.mem.read addr) → runWith m k s = .next t →
    ∃ u, runWith m k { s with mem := mem } = .next u ∧ u.outputs = t.outputs

/-- A memory of `N` cells, two or more, that holds no jump and nothing undecodable before its last cell runs its first `N - 1`
instructions in order and then halts with `PC` = `N - 1` (spec/40_engine_cycle.md R81 (b), which the spec marks as derived; the
halt of 16 cells, at `PC` = 15, by its decision D4, log entry 3). -/
def Obligations.StraightLineRunHaltsAtLastCell : Prop :=
  ∀ (m : OpMap) (s : State), IsLaunch s → 2 ≤ s.len.val →
    (∀ addr, addr + 1 < s.len.val →
      ∃ i, decodeWith m (s.mem.read addr) = .good i ∧ i.kind ≠ .jump ∧ i.kind ≠ .jumpIfNoCarry) →
    ∀ k, k < s.len.val → ∃ t, runWith m k s = .next t ∧ t.pc.toNat = k ∧
      t.status = if k + 1 = s.len.val then .halt else .run

/-- The opcode map is only a spelling: a program written in the bytes of one admissible map and the same program written in the
bytes of another, over the same length and input latch, run alike, state for state but for the memory (spec/30_encoding.md
R55, R57; spec/40_engine_cycle.md R78, R79, R81). The program has a cell and each cell decodes: with no cell the synthetic zero
byte may be another instruction under the other map, and an undecodable cell reports its own nibble, so that neither is the same
program in another spelling. Two things rest on more than the spec's plain words: that there is a next state after every number
of steps, those past the halt included, is the model's choice, log entry 9 (a halted machine steps to itself); that a run never
reaches the synthetic byte after a taken jump with immediate 14 in a short memory is the spec's decision D4, log entry 3
(`PC` = 15 always halts). -/
def Obligations.RunsAgreeUnderAnyTwoOpcodeMaps : Prop :=
  ∀ (m n : OpMap) (s : State) (mem : Memory), m.wellFormed → n.wellFormed → IsLaunch s → 1 ≤ s.len.val →
    (∀ addr, addr < s.len.val → ∃ i, decodeWith m (s.mem.read addr) = .good i ∧ decodeWith n (mem.read addr) = .good i) →
    ∀ k, ∃ t, runWith m k s = .next t ∧ runWith n k { s with mem := mem } = .next { t with mem := mem }

/-- A memory of at most one cell ends its run in the first cycle: there is no check before the first fetch, one instruction
executes and the machine halts; only the byte of a one-cell memory can be undecodable, and it aborts, changing `STATUS` only.
With no cell at all the default machine executes the synthetic `Add(A, 0)` and halts with `PC` = 1 (spec/40_engine_cycle.md R80
and spec/43_control_transfer.md R116 (f), derived there; the spec's decisions: an empty memory is D9, log entry 11; the default
map D1, log entry 1; that the aborting cycle changes nothing else D8, log entry 10; the one-cell `Jump(15)` rests on the wrap
D3, log entry 2, and the one-cell `Jump(14)` on the comparison D4, log entry 3). -/
def Obligations.MemoryOfAtMostOneCellRunsOneCycle : Prop :=
  ∀ (m : OpMap) (s : State), m.wellFormed → IsLaunch s → s.len.val ≤ 1 →
    (∀ i, decodeWith m (fetch s) = .good i →
      ∃ t, exec i s = .next t ∧ stepWith m s = .next { t with pc := t.pc + 1, status := .halt }) ∧
    (∀ e, decodeWith m (fetch s) = .bad e → s.len.val = 1 ∧ ∃ n, stepWith m s = .next { s with status := .abort n }) ∧
    (s.len.val = 0 → step s = .next { s with pc := 1, status := .halt })

/-- Every step keeps the invariant: canonical memory, the next fetch at 0 or before the last cell, `HALT` only where the halt
condition holds, `ABORT(n)` only at a byte with the unassigned nibble `n` (spec/40_engine_cycle.md R77, R81;
spec/60_exceptions.md R132). It holds of no run in particular: of any state with the invariant. (That `PC` = 15 always halts is
the spec's decision D4, log entry 3, and that an aborted machine stands at the byte its D8, log entry 10; the canonical form of
the memory and the next state of a halted machine are the model's choices, log entries 8 and 9.) -/
def Obligations.StepKeepsTheInvariant : Prop :=
  ∀ (m : OpMap) (s t : State), Inv m s → stepWith m s = .next t → Inv m t

/-- The invariant holds right after reset, under every opcode map (that `State.reset` has an empty memory is the model's choice,
log entry 7). -/
def Obligations.InvariantHoldsAtReset : Prop := ∀ m : OpMap, Inv m State.reset

/-! ### Before the run -/

/-- R14. Right after a reset both registers hold 0 and reading one is legal: a move from it, or an output of it, completes and
gives 0. -/
def Obligations.RegistersReadZeroAfterReset : Prop :=
  ∀ (s : State) (r : Reg), (resetCore s).readReg r = 0 ∧
    (∃ t, exec .movAtoB (resetCore s) = .next t ∧ t.b = 0) ∧ (∃ t, exec .movBtoA (resetCore s) = .next t ∧ t.a = 0) ∧
    ∃ t, exec .outFromB (resetCore s) = .next t ∧ t.portOut = 0

/-- Reset sets the six elements and keeps the memory, its length and the input latch, from every state, an ended one included
(spec/10_state.md section 9, spec/70_reset_and_hazards.md section 1; `PORT_OUT` = 0 is the spec's decision D5, `STATUS` = `RUN`
its D7, what is kept its D22; log entries 4, 9 and 18). `State.reset` has the same six values, and its memory lists nothing,
which is the model's choice, log entry 7. -/
def Obligations.ResetSetsTheSixElementsOnly : Prop :=
  (∀ s : State, resetCore s =
    { s with a := 0, b := 0, cf := false, pc := 0, portOut := 0, status := .run }) ∧
  State.reset.outputs =
    { imemAddr := 0, portOut := 0, regA := 0, regB := 0, carry := false, pc := 0, status := .run } ∧ State.reset.mem = []

/-- R136. Building the memory is refused exactly when there are more than 16 bytes, and no state exists then. -/
def Obligations.MemoryOverflowExactlyBeyondSixteenBytes : Prop :=
  ∀ (bytes : List Byte) (portIn : Nibble),
    (boot bytes portIn = .refused .memoryOverflow ↔ 16 < bytes.length) ∧
    (bytes.length ≤ 16 ↔ ∃ s, boot bytes portIn = .next s)

/-- What booting leaves: a launch state with the invariant, the given bytes at their indexes, their number as the length and the
given input latch (spec/70_reset_and_hazards.md section 2; in a launch state `PORT_OUT` = 0 is the spec's decision D5, log entry
4; the canonical form of the memory is the model's choice, log entry 8). -/
def Obligations.BootedStateHoldsTheProgram : Prop :=
  ∀ (m : OpMap) (bytes : List Byte) (portIn : Nibble) (s : State), boot bytes portIn = .next s →
    IsLaunch s ∧ Inv m s ∧ s.len.val = bytes.length ∧ s.portIn = portIn ∧
    ∀ (addr : Nat) (h : addr < bytes.length), s.mem.read addr = bytes[addr]

/-- The assembler refuses exactly the empty program and otherwise gives one byte for each instruction (spec/60_exceptions.md
R137, whose clause on a length of 0 is the spec's decision D9, log entry 11). -/
def Obligations.EmptyProgramIsTheOnlyAssemblerRefusal : Prop :=
  ∀ (m : OpMap) (xs : List AbstractInstr),
    (assemble m xs = .refused .emptyProgram ↔ xs = []) ∧
    (xs ≠ [] → ∃ bytes, assemble m xs = .next bytes ∧ bytes.length = xs.length)

/-- From the assembler to the fetch: a well-formed source of at most 16 instructions assembles and boots, and the byte in each
cell decodes to the kind and the immediate of the instruction at that index, under every admissible map
(spec/30_encoding.md section 4, spec/20_memory.md section 3). -/
def Obligations.AssembledProgramDecodesBackFromMemory : Prop :=
  ∀ (m : OpMap) (xs : List AbstractInstr) (portIn : Nibble), m.wellFormed → sourceWellFormed xs → xs.length ≤ 16 →
    ∃ bytes s, assemble m xs = .next bytes ∧ boot bytes portIn = .next s ∧ s.len.val = xs.length ∧
      ∀ (addr : Nat) (h : addr < xs.length),
        decodePair m (s.mem.read addr) = .good (xs[addr].kind, BitVec.ofNat 4 xs[addr].imm)

/-- Every `InA` and `InB` of a run reads the input latch the run was started with, however many steps it comes after
(spec/10_state.md R22; that the latch is constant during a run is the spec's decision D6, log entry 5). -/
def Obligations.EveryInputOfARunReadsTheSameLatch : Prop :=
  ∀ (m : OpMap) (s t u : State) (k : Nat), runWith m k s = .next t → t.status = .run → stepWith m t = .next u →
    (decodeWith m (fetch t) = .good .inA → u.a = s.portIn) ∧ (decodeWith m (fetch t) = .good .inB → u.b = s.portIn)
end

