-- ==== Sys2Proof/Laws/Codec.lean ====
section
/-! SUPPORT. The codec: the two fields of the byte, looking a nibble up in the opcode map, and what the decoder answers. -/

namespace Sys2Proof

/-! ### The fields of the byte -/

@[simp] theorem highNibble_joinNibbles (op low : Nibble) : highNibble (joinNibbles op low) = op := by
  revert op low
  decide

@[simp] theorem lowNibble_joinNibbles (op low : Nibble) : lowNibble (joinNibbles op low) = low := by
  revert op low
  decide

@[simp] theorem joinNibbles_high_low (b : Byte) : joinNibbles (highNibble b) (lowNibble b) = b := by
  revert b
  decide

/-! ### The opcode map -/

theorem Kind.mem_all (k : Kind) : k ∈ Kind.all := by
  cases k <;> decide

/-- In an admissible map no two kinds share a nibble. -/
theorem OpMap.injective_of_wellFormed (m : OpMap) (h : m.wellFormed) (k l : Kind) (hkl : m k = m l) : k = l :=
  List.inj_on_of_nodup_map h.1 (Kind.mem_all k) (Kind.mem_all l) hkl

/-- In an admissible map nibble 0 stands for some kind. -/
theorem OpMap.zero_assigned (m : OpMap) (h : m.wellFormed) : ∃ k, m k = 0 := by
  obtain ⟨k, -, hk⟩ := List.mem_map.mp h.2
  exact ⟨k, hk⟩

/-- Looking a nibble up finds the one kind that has it. -/
theorem kindOf_eq_some (m : OpMap) (h : m.wellFormed) (n : Nibble) (k : Kind) : kindOf m n = some k ↔ m k = n := by
  constructor
  · intro hk
    simpa using List.find?_some hk
  · intro hk
    cases hf : kindOf m n with
    | none =>
      have := List.find?_eq_none.mp hf k (Kind.mem_all k)
      simp [hk] at this
    | some l =>
      have hl : m l = n := by simpa using List.find?_some hf
      rw [OpMap.injective_of_wellFormed m h l k (hl.trans hk.symm)]

/-- Looking a nibble up fails exactly where no kind has it. -/
theorem kindOf_eq_none (m : OpMap) (n : Nibble) : kindOf m n = none ↔ ∀ k, m k ≠ n := by
  simp [kindOf, List.find?_eq_none, Kind.mem_all]

/-! ### Kinds and operands of instructions -/

@[simp] theorem Instr.kind_ofPair (k : Kind) (opnd : Nibble) : (Instr.ofPair k opnd).kind = k := by
  cases k <;> rfl

theorem Instr.operand_ofPair (k : Kind) (opnd : Nibble) :
    (Instr.ofPair k opnd).operand = if k.operandClass = .imm then opnd else 0 := by
  cases k <;> rfl

@[simp] theorem Instr.ofPair_kind_operand (i : Instr) : Instr.ofPair i.kind i.operand = i := by
  cases i <;> rfl

/-- An instruction without an immediate has operand 0. -/
theorem Instr.operand_of_class_ne_imm (i : Instr) (h : i.kind.operandClass ≠ .imm) : i.operand = 0 := by
  cases i <;> simp_all [Instr.kind, Instr.operand, Kind.operandClass]

/-! ### The decoder -/

/-- All the decoder can answer. -/
theorem decodeWith_cases (m : OpMap) (b : Byte) :
    (kindOf m (highNibble b) = none ∧ decodeWith m b = .bad (.unknownOpcode (highNibble b))) ∨
    (∃ k, kindOf m (highNibble b) = some k ∧
      decodeWith m b = .good (Instr.ofPair k (if k.operandClass = .noneZero then 0 else lowNibble b))) := by
  cases h : kindOf m (highNibble b) with
  | none => exact .inl ⟨rfl, by simp [decodeWith, decodePair, h]⟩
  | some k => exact .inr ⟨k, rfl, by simp [decodeWith, decodePair, h]⟩

/-- A byte that decodes has its kind's nibble in the opcode field. -/
theorem highNibble_of_decodeWith (m : OpMap) (b : Byte) (i : Instr) (h : decodeWith m b = .good i) :
    m i.kind = highNibble b := by
  rcases decodeWith_cases m b with ⟨-, hd⟩ | ⟨k, hk, hd⟩
  · rw [hd] at h
    cases h
  · rw [hd] at h
    cases h
    simpa using List.find?_some hk

end Sys2Proof
end

