-- ==== Sys2Proof/Laws/State.lean ====
section
/-! SUPPORT. One lemma per field and per update of the state, so that no proof unfolds a record update; the register file's
read-after-write laws; what reset and the exception leave in each field. -/

namespace Sys2Proof.Machine

/-! ### `State.writeCarry` -/

@[simp] theorem State.writeCarry_a (s : State) (c : Bool) : (s.writeCarry c).a = s.a := rfl
@[simp] theorem State.writeCarry_b (s : State) (c : Bool) : (s.writeCarry c).b = s.b := rfl
@[simp] theorem State.writeCarry_cf (s : State) (c : Bool) : (s.writeCarry c).cf = c := rfl
@[simp] theorem State.writeCarry_pc (s : State) (c : Bool) : (s.writeCarry c).pc = s.pc := rfl
@[simp] theorem State.writeCarry_portOut (s : State) (c : Bool) : (s.writeCarry c).portOut = s.portOut := rfl
@[simp] theorem State.writeCarry_status (s : State) (c : Bool) : (s.writeCarry c).status = s.status := rfl
@[simp] theorem State.writeCarry_mem (s : State) (c : Bool) : (s.writeCarry c).mem = s.mem := rfl
@[simp] theorem State.writeCarry_len (s : State) (c : Bool) : (s.writeCarry c).len = s.len := rfl
@[simp] theorem State.writeCarry_portIn (s : State) (c : Bool) : (s.writeCarry c).portIn = s.portIn := rfl

/-! ### `State.writePc` -/

@[simp] theorem State.writePc_a (s : State) (v : Nibble) : (s.writePc v).a = s.a := rfl
@[simp] theorem State.writePc_b (s : State) (v : Nibble) : (s.writePc v).b = s.b := rfl
@[simp] theorem State.writePc_cf (s : State) (v : Nibble) : (s.writePc v).cf = s.cf := rfl
@[simp] theorem State.writePc_pc (s : State) (v : Nibble) : (s.writePc v).pc = v := rfl
@[simp] theorem State.writePc_portOut (s : State) (v : Nibble) : (s.writePc v).portOut = s.portOut := rfl
@[simp] theorem State.writePc_status (s : State) (v : Nibble) : (s.writePc v).status = s.status := rfl
@[simp] theorem State.writePc_mem (s : State) (v : Nibble) : (s.writePc v).mem = s.mem := rfl
@[simp] theorem State.writePc_len (s : State) (v : Nibble) : (s.writePc v).len = s.len := rfl
@[simp] theorem State.writePc_portIn (s : State) (v : Nibble) : (s.writePc v).portIn = s.portIn := rfl

/-! ### `State.writePortOut` -/

@[simp] theorem State.writePortOut_a (s : State) (v : Nibble) : (s.writePortOut v).a = s.a := rfl
@[simp] theorem State.writePortOut_b (s : State) (v : Nibble) : (s.writePortOut v).b = s.b := rfl
@[simp] theorem State.writePortOut_cf (s : State) (v : Nibble) : (s.writePortOut v).cf = s.cf := rfl
@[simp] theorem State.writePortOut_pc (s : State) (v : Nibble) : (s.writePortOut v).pc = s.pc := rfl
@[simp] theorem State.writePortOut_portOut (s : State) (v : Nibble) : (s.writePortOut v).portOut = v := rfl
@[simp] theorem State.writePortOut_status (s : State) (v : Nibble) : (s.writePortOut v).status = s.status := rfl
@[simp] theorem State.writePortOut_mem (s : State) (v : Nibble) : (s.writePortOut v).mem = s.mem := rfl
@[simp] theorem State.writePortOut_len (s : State) (v : Nibble) : (s.writePortOut v).len = s.len := rfl
@[simp] theorem State.writePortOut_portIn (s : State) (v : Nibble) : (s.writePortOut v).portIn = s.portIn := rfl

/-! ### `State.writeStatus` -/

@[simp] theorem State.writeStatus_a (s : State) (v : Status) : (s.writeStatus v).a = s.a := rfl
@[simp] theorem State.writeStatus_b (s : State) (v : Status) : (s.writeStatus v).b = s.b := rfl
@[simp] theorem State.writeStatus_cf (s : State) (v : Status) : (s.writeStatus v).cf = s.cf := rfl
@[simp] theorem State.writeStatus_pc (s : State) (v : Status) : (s.writeStatus v).pc = s.pc := rfl
@[simp] theorem State.writeStatus_portOut (s : State) (v : Status) : (s.writeStatus v).portOut = s.portOut := rfl
@[simp] theorem State.writeStatus_status (s : State) (v : Status) : (s.writeStatus v).status = v := rfl
@[simp] theorem State.writeStatus_mem (s : State) (v : Status) : (s.writeStatus v).mem = s.mem := rfl
@[simp] theorem State.writeStatus_len (s : State) (v : Status) : (s.writeStatus v).len = s.len := rfl
@[simp] theorem State.writeStatus_portIn (s : State) (v : Status) : (s.writeStatus v).portIn = s.portIn := rfl

/-! ### `State.writeReg` -/

@[simp] theorem State.writeReg_A_a (s : State) (v : Nibble) : (s.writeReg .A v).a = v := rfl
@[simp] theorem State.writeReg_B_a (s : State) (v : Nibble) : (s.writeReg .B v).a = s.a := rfl
@[simp] theorem State.writeReg_B_b (s : State) (v : Nibble) : (s.writeReg .B v).b = v := rfl
@[simp] theorem State.writeReg_A_b (s : State) (v : Nibble) : (s.writeReg .A v).b = s.b := rfl
@[simp] theorem State.writeReg_cf (s : State) (r : Reg) (v : Nibble) : (s.writeReg r v).cf = s.cf := by
  cases r <;> rfl
@[simp] theorem State.writeReg_pc (s : State) (r : Reg) (v : Nibble) : (s.writeReg r v).pc = s.pc := by
  cases r <;> rfl
@[simp] theorem State.writeReg_portOut (s : State) (r : Reg) (v : Nibble) : (s.writeReg r v).portOut = s.portOut := by
  cases r <;> rfl
@[simp] theorem State.writeReg_status (s : State) (r : Reg) (v : Nibble) : (s.writeReg r v).status = s.status := by
  cases r <;> rfl
@[simp] theorem State.writeReg_mem (s : State) (r : Reg) (v : Nibble) : (s.writeReg r v).mem = s.mem := by
  cases r <;> rfl
@[simp] theorem State.writeReg_len (s : State) (r : Reg) (v : Nibble) : (s.writeReg r v).len = s.len := by
  cases r <;> rfl
@[simp] theorem State.writeReg_portIn (s : State) (r : Reg) (v : Nibble) : (s.writeReg r v).portIn = s.portIn := by
  cases r <;> rfl

/-! ### The register file -/

@[simp] theorem State.readReg_A (s : State) : s.readReg .A = s.a := rfl
@[simp] theorem State.readReg_B (s : State) : s.readReg .B = s.b := rfl

theorem State.readReg_writeReg_same (s : State) (r : Reg) (v : Nibble) : (s.writeReg r v).readReg r = v := by
  cases r <;> rfl

theorem State.readReg_writeReg_other (s : State) (r q : Reg) (v : Nibble) (h : q ≠ r) :
    (s.writeReg r v).readReg q = s.readReg q := by
  cases r <;> cases q <;> first | rfl | exact absurd rfl h

/-! ### Reset and the exception -/

@[simp] theorem State.afterReset_a (mem : Memory) (len : Fin (Config.capacity + 1)) (portIn : Nibble) :
    (State.afterReset mem len portIn).a = 0 := rfl
@[simp] theorem State.afterReset_b (mem : Memory) (len : Fin (Config.capacity + 1)) (portIn : Nibble) :
    (State.afterReset mem len portIn).b = 0 := rfl
@[simp] theorem State.afterReset_cf (mem : Memory) (len : Fin (Config.capacity + 1)) (portIn : Nibble) :
    (State.afterReset mem len portIn).cf = false := rfl
@[simp] theorem State.afterReset_pc (mem : Memory) (len : Fin (Config.capacity + 1)) (portIn : Nibble) :
    (State.afterReset mem len portIn).pc = 0 := rfl
@[simp] theorem State.afterReset_portOut (mem : Memory) (len : Fin (Config.capacity + 1)) (portIn : Nibble) :
    (State.afterReset mem len portIn).portOut = outReset := rfl
@[simp] theorem State.afterReset_status (mem : Memory) (len : Fin (Config.capacity + 1)) (portIn : Nibble) :
    (State.afterReset mem len portIn).status = .run := rfl
@[simp] theorem State.afterReset_mem (mem : Memory) (len : Fin (Config.capacity + 1)) (portIn : Nibble) :
    (State.afterReset mem len portIn).mem = mem := rfl
@[simp] theorem State.afterReset_len (mem : Memory) (len : Fin (Config.capacity + 1)) (portIn : Nibble) :
    (State.afterReset mem len portIn).len = len := rfl
@[simp] theorem State.afterReset_portIn (mem : Memory) (len : Fin (Config.capacity + 1)) (portIn : Nibble) :
    (State.afterReset mem len portIn).portIn = portIn := rfl

@[simp] theorem resetCore_resetCore (s : State) : resetCore (resetCore s) = resetCore s := rfl

theorem takeUnknownOpcode_eq (n : Nibble) (s : State) : takeUnknownOpcode n s = { s with status := .abort n } := rfl

/-! ### The length and the fetch -/

/-- `LEN` is at most 16, in the form arithmetic needs. -/
theorem State.len_le (s : State) : s.len.val ≤ 16 := Nat.le_of_lt_succ s.len.isLt

/-- The fetch depends on the program counter, the memory and the length alone. -/
theorem fetch_congr (s t : State) (hpc : t.pc = s.pc) (hmem : t.mem = s.mem) (hlen : t.len = s.len) : fetch t = fetch s := by
  simp [fetch, hpc, hmem, hlen]

end Sys2Proof.Machine
end

