-- ==== Sys2Proof/Laws/Exec.lean ====
section
/-! SUPPORT. What each shared operation of the execute stage does, said once: everything it writes, and that nothing else
changes. -/

namespace Sys2Proof.Machine

theorem addImmediate_A (imm : Nibble) (s : State) :
    addImmediate .A imm s = { s with a := maskedSum s.a imm, cf := carryAfterAdd s.cf s.a imm } := rfl

theorem addImmediate_B (imm : Nibble) (s : State) :
    addImmediate .B imm s = { s with b := maskedSum s.b imm, cf := carryAfterAdd s.cf s.b imm } := rfl

theorem transfer_A (src : Source) (s : State) :
    transfer (.reg .A) src s = { s with a := readSource s src, cf := false } := rfl

theorem transfer_B (src : Source) (s : State) :
    transfer (.reg .B) src s = { s with b := readSource s src, cf := false } := rfl

theorem transfer_portOut (src : Source) (s : State) :
    transfer .portOut src s = { s with portOut := readSource s src, cf := false } := rfl

theorem branch_eq (k : Kind) (target : Nibble) (s : State) :
    branch k target s = { s with pc := if taken k s.cf then target else s.pc, cf := false } := by
  unfold branch
  split <;> rfl

/-- The stored sum is the 4-bit sum. -/
theorem maskedSum_eq_add (x imm : Nibble) : maskedSum x imm = x + imm := by
  apply BitVec.eq_of_toNat_eq
  simp [maskedSum, unmaskedSum, BitVec.toNat_add]

/-- The fields no arm of the execute stage writes. -/
structure KeepsParameters (s t : State) : Prop where
  status : t.status = s.status
  mem : t.mem = s.mem
  len : t.len = s.len
  portIn : t.portIn = s.portIn

theorem addImmediate_keepsParameters (r : Reg) (imm : Nibble) (s : State) : KeepsParameters s (addImmediate r imm s) := by
  constructor <;> simp [addImmediate]

theorem transfer_keepsParameters (dst : Dest) (src : Source) (s : State) : KeepsParameters s (transfer dst src s) := by
  cases dst <;> constructor <;> simp [transfer, clearCarry, writeDest]

theorem branch_keepsParameters (k : Kind) (target : Nibble) (s : State) : KeepsParameters s (branch k target s) := by
  rw [branch_eq]
  constructor <;> rfl

/-! ### Advance-or-halt -/

/-- The fourth stage writes the program counter and, where the halt condition holds, the status. -/
theorem advanceOrHalt_eq (s : State) :
    advanceOrHalt s =
      { s with pc := s.pc + 1, status := if s.len.val ≤ (s.pc + 1).toNat + 1 then .halt else s.status } := by
  by_cases h : s.len.val ≤ (s.pc + 1).toNat + 1
  · have hb : haltsAt (advance s).len (advance s).pc = true := decide_eq_true h
    rw [advanceOrHalt, haltCheck, if_pos hb, if_pos h]
    rfl
  · have hb : ¬haltsAt (advance s).len (advance s).pc = true := fun hc => h (of_decide_eq_true hc)
    rw [advanceOrHalt, haltCheck, if_neg hb, if_neg h]
    rfl

end Sys2Proof.Machine
end

