-- ==== Sys2Proof/Laws/Memory.lean ====
section
/-! SUPPORT. The memory: read after write, the canonical form is kept by every operation and determines the memory, and what
a program's memory holds. -/

namespace Sys2Proof.Machine

theorem Memory.read_nil (addr : Nat) : Memory.read [] addr = unlistedByte := rfl

/-- An address below every listed one is unlisted. -/
theorem Memory.read_of_lt (m : Memory) (addr : Nat) (h : ∀ c ∈ m, addr < c.1) : m.read addr = unlistedByte := by
  induction m with
  | nil => rfl
  | cons c rest ih =>
    have hc := h c (by simp)
    simp only [Memory.read, if_neg (Nat.ne_of_lt hc)]
    exact ih fun d hd => h d (by simp [hd])

theorem Memory.wf_nil : Memory.wf [] := by simp [Memory.wf]

theorem Memory.wf_cons (c : Host.Cell) (m : Memory) :
    Memory.wf (c :: m) ↔ (∀ d ∈ m, c.1 < d.1) ∧ c.2 ≠ unlistedByte ∧ Memory.wf m := by
  simp only [Memory.wf, List.pairwise_cons, List.forall_mem_cons]
  tauto

/-- A write lists no new address but its own. -/
theorem Memory.mem_write (m : Memory) (addr : Nat) (byte : Byte) (c : Host.Cell) (h : c ∈ m.write addr byte) :
    c = (addr, byte) ∧ byte ≠ unlistedByte ∨ c ∈ m := by
  induction m with
  | nil =>
    simp only [Memory.write] at h
    split at h <;> simp_all
  | cons d rest ih =>
    simp only [Memory.write] at h
    split_ifs at h <;> simp_all
    · tauto
    · rcases h with h | h
      · exact .inr (.inl h)
      · rcases ih h with h | h <;> tauto

/-- A write keeps the canonical form. -/
theorem Memory.wf_write (m : Memory) (addr : Nat) (byte : Byte) (h : m.wf) : (m.write addr byte).wf := by
  induction m with
  | nil =>
    simp only [Memory.write]
    split <;> simp_all [Memory.wf]
  | cons d rest ih =>
    obtain ⟨hlt, hd, hrest⟩ := (Memory.wf_cons d rest).mp h
    simp only [Memory.write]
    split_ifs with h1 h2 h3 h4
    · exact h
    · refine (Memory.wf_cons _ _).mpr ⟨fun e he => ?_, h2, h⟩
      rcases List.mem_cons.mp he with rfl | he
      · exact h1
      · exact h1.trans (hlt e he)
    · exact hrest
    · exact (Memory.wf_cons _ _).mpr ⟨fun e he => h3 ▸ hlt e he, h4, hrest⟩
    · refine (Memory.wf_cons _ _).mpr ⟨fun e he => ?_, hd, ih hrest⟩
      rcases Memory.mem_write rest addr byte e he with ⟨rfl, -⟩ | he
      · exact Nat.lt_of_le_of_ne (Nat.le_of_not_lt h1) (Ne.symm h3)
      · exact hlt e he

theorem Memory.read_write_same (m : Memory) (addr : Nat) (byte : Byte) (h : m.wf) : (m.write addr byte).read addr = byte := by
  induction m with
  | nil =>
    simp only [Memory.write]
    split <;> simp_all [Memory.read]
  | cons d rest ih =>
    obtain ⟨hlt, hd, hrest⟩ := (Memory.wf_cons d rest).mp h
    simp only [Memory.write]
    split_ifs with h1 h2 h3 h4
    · rw [h2]
      refine Memory.read_of_lt _ _ fun c hc => ?_
      rcases List.mem_cons.mp hc with rfl | hc
      · exact h1
      · exact h1.trans (hlt c hc)
    · simp [Memory.read]
    · rw [h4]
      exact Memory.read_of_lt _ _ fun c hc => h3 ▸ hlt c hc
    · simp [Memory.read]
    · simp only [Memory.read, if_neg h3]
      exact ih hrest

theorem Memory.read_write_other (m : Memory) (addr : Nat) (byte : Byte) (other : Nat) (h : m.wf) (hne : other ≠ addr) :
    (m.write addr byte).read other = m.read other := by
  induction m with
  | nil =>
    simp only [Memory.write]
    split <;> simp [Memory.read, hne]
  | cons d rest ih =>
    obtain ⟨hlt, hd, hrest⟩ := (Memory.wf_cons d rest).mp h
    simp only [Memory.write]
    split_ifs with h1 h2 h3 h4
    · rfl
    · simp [Memory.read, hne]
    · have hk : other ≠ d.1 := fun he => hne (he.trans h3.symm)
      simp [Memory.read, hk]
    · have hk : other ≠ d.1 := fun he => hne (he.trans h3.symm)
      simp [Memory.read, hk, hne]
    · simp only [Memory.read]
      split
      · rfl
      · exact ih hrest

/-- Two canonical memories that read alike are the same list. -/
theorem Memory.ext_of_read (m n : Memory) (hm : m.wf) (hn : n.wf) (h : ∀ addr, m.read addr = n.read addr) : m = n := by
  induction m generalizing n with
  | nil =>
    cases n with
    | nil => rfl
    | cons d n =>
      obtain ⟨-, hd, -⟩ := (Memory.wf_cons d n).mp hn
      have := h d.1
      simp [Memory.read] at this
      exact absurd this.symm hd
  | cons c m ih =>
    obtain ⟨hltc, hc, hm'⟩ := (Memory.wf_cons c m).mp hm
    cases n with
    | nil =>
      have := h c.1
      simp [Memory.read] at this
      exact absurd this hc
    | cons d n =>
      obtain ⟨hltd, hd, hn'⟩ := (Memory.wf_cons d n).mp hn
      have hcd : c.1 = d.1 := by
        rcases Nat.lt_trichotomy c.1 d.1 with hlt | heq | hgt
        · have h1 := h c.1
          rw [Memory.read_of_lt (d :: n) c.1 (by
            intro e he
            rcases List.mem_cons.mp he with rfl | he
            · exact hlt
            · exact hlt.trans (hltd e he))] at h1
          simp [Memory.read] at h1
          exact absurd h1 hc
        · exact heq
        · have h1 := h d.1
          rw [Memory.read_of_lt (c :: m) d.1 (by
            intro e he
            rcases List.mem_cons.mp he with rfl | he
            · exact hgt
            · exact hgt.trans (hltc e he))] at h1
          simp [Memory.read] at h1
          exact absurd h1.symm hd
      have hval : c.2 = d.2 := by
        have h1 := h c.1
        simpa [Memory.read, hcd] using h1
      have hrest : m = n := by
        refine ih n hm' hn' fun addr => ?_
        by_cases ha : addr = c.1
        · rw [Memory.read_of_lt m addr (fun e he => ha ▸ hltc e he),
            Memory.read_of_lt n addr (fun e he => ha ▸ hcd ▸ hltd e he)]
        · have h1 := h addr
          have ha' : addr ≠ d.1 := fun he => ha (he.trans hcd.symm)
          simpa [Memory.read, ha, ha'] using h1
      rw [hrest, Prod.ext hcd hval]

/-! ### The memory of a program -/

theorem Memory.ofBytesFrom_wf (bytes : List Byte) (start : Nat) : (Memory.ofBytesFrom start bytes).wf := by
  induction bytes generalizing start with
  | nil => exact Memory.wf_nil
  | cons byte rest ih => exact Memory.wf_write _ _ _ (ih _)

theorem Memory.ofBytesFrom_bound (bytes : List Byte) (start : Nat) :
    ∀ c ∈ Memory.ofBytesFrom start bytes, c.1 < start + bytes.length := by
  induction bytes generalizing start with
  | nil => simp [Memory.ofBytesFrom]
  | cons byte rest ih =>
    intro c hc
    rcases Memory.mem_write _ _ _ _ hc with ⟨rfl, -⟩ | hc
    · simp
    · have := ih (start + 1) c hc
      simp only [List.length_cons]
      omega

theorem Memory.read_ofBytesFrom (bytes : List Byte) (start offset : Nat) :
    (Memory.ofBytesFrom start bytes).read (start + offset) = bytes.getD offset unlistedByte := by
  induction bytes generalizing start offset with
  | nil => simp [Memory.ofBytesFrom, Memory.read]
  | cons byte rest ih =>
    simp only [Memory.ofBytesFrom]
    cases offset with
    | zero => simpa using Memory.read_write_same _ start byte (Memory.ofBytesFrom_wf rest (start + 1))
    | succ k =>
      rw [Memory.read_write_other _ _ _ _ (Memory.ofBytesFrom_wf rest (start + 1)) (by omega)]
      have := ih (start + 1) k
      rw [show start + (k + 1) = start + 1 + k by omega, this]
      simp

theorem Memory.ofBytes_wf (bytes : List Byte) : (Memory.ofBytes bytes).wf := Memory.ofBytesFrom_wf bytes 0

theorem Memory.ofBytes_bound (bytes : List Byte) : ∀ c ∈ Memory.ofBytes bytes, c.1 < bytes.length := by
  simpa [Memory.ofBytes] using Memory.ofBytesFrom_bound bytes 0

theorem Memory.read_ofBytes (bytes : List Byte) (addr : Nat) :
    (Memory.ofBytes bytes).read addr = bytes.getD addr unlistedByte := by
  simpa [Memory.ofBytes] using Memory.read_ofBytesFrom bytes 0 addr

/-- Placing a byte for the next fetch keeps the canonical form. -/
theorem placeForFetch_wf (s : State) (byte : Byte) (h : s.mem.wf) : (placeForFetch s byte).mem.wf :=
  Memory.wf_write _ _ _ h

/-- The memory after reset is canonical. -/
theorem reset_memory_wf : State.reset.mem.wf := Memory.wf_nil

end Sys2Proof.Machine
end

