-- ==== Sys2Proof/Laws/PerInstr.lean ====
section
/-! SUPPORT. The canonical byte of every instruction, one lemma per constructor. -/

namespace Sys2Proof.Laws

/-- Under every opcode map the canonical byte is the kind's nibble above the operand (spec/30_encoding.md R58). -/
def CanonicalByte.Statement (i : Instr) : Prop := ∀ m : OpMap, encodeWith m i = joinNibbles (m i.kind) i.operand

/-- The immediate survives the encoder's mask. -/
theorem encodeWith_of_class_imm (m : OpMap) (i : Instr) (h : i.kind.operandClass = .imm) :
    encodeWith m i = joinNibbles (m i.kind) i.operand := by
  simp [encodeWith, encodeAbstract, Instr.toAbstract, h]

/-- A kind without an immediate is encoded with a zero low nibble, which is its operand. -/
theorem encodeWith_of_class_ne_imm (m : OpMap) (i : Instr) (h : i.kind.operandClass ≠ .imm) :
    encodeWith m i = joinNibbles (m i.kind) i.operand := by
  simp [encodeWith, encodeAbstract, Instr.toAbstract, h, Instr.operand_of_class_ne_imm i h]

theorem CanonicalByte.addA (imm : Nibble) : CanonicalByte.Statement (.addA imm) :=
  fun m => encodeWith_of_class_imm m _ rfl

theorem CanonicalByte.movBtoA : CanonicalByte.Statement .movBtoA :=
  fun m => encodeWith_of_class_ne_imm m _ (by decide)

theorem CanonicalByte.inA : CanonicalByte.Statement .inA :=
  fun m => encodeWith_of_class_ne_imm m _ (by decide)

theorem CanonicalByte.movA (imm : Nibble) : CanonicalByte.Statement (.movA imm) :=
  fun m => encodeWith_of_class_imm m _ rfl

theorem CanonicalByte.movAtoB : CanonicalByte.Statement .movAtoB :=
  fun m => encodeWith_of_class_ne_imm m _ (by decide)

theorem CanonicalByte.addB (imm : Nibble) : CanonicalByte.Statement (.addB imm) :=
  fun m => encodeWith_of_class_imm m _ rfl

theorem CanonicalByte.inB : CanonicalByte.Statement .inB :=
  fun m => encodeWith_of_class_ne_imm m _ (by decide)

theorem CanonicalByte.movB (imm : Nibble) : CanonicalByte.Statement (.movB imm) :=
  fun m => encodeWith_of_class_imm m _ rfl

theorem CanonicalByte.outFromB : CanonicalByte.Statement .outFromB :=
  fun m => encodeWith_of_class_ne_imm m _ (by decide)

theorem CanonicalByte.outImmediate (imm : Nibble) : CanonicalByte.Statement (.outImmediate imm) :=
  fun m => encodeWith_of_class_imm m _ rfl

theorem CanonicalByte.jumpIfNoCarry (imm : Nibble) : CanonicalByte.Statement (.jumpIfNoCarry imm) :=
  fun m => encodeWith_of_class_imm m _ rfl

theorem CanonicalByte.jump (imm : Nibble) : CanonicalByte.Statement (.jump imm) :=
  fun m => encodeWith_of_class_imm m _ rfl

end Sys2Proof.Laws
end

