-- ==== Sys2Proof/Laws/Step.lean ====
section
/-! SUPPORT. All a step can do, said once, and the two ways to peel a run apart. -/

namespace Sys2Proof.Machine

/-- If a step answers a next state, one of three things happened: a halted machine stayed as it is, an undecodable byte
aborted the run, or the decoded instruction executed and the machine advanced. -/
theorem stepWith_next_cases (m : OpMap) (s t : State) (h : stepWith m s = .next t) :
    (s.status = .halt ∧ t = s) ∨
    (s.status = .run ∧ ∃ n, decodeWith m (fetch s) = .bad (.unknownOpcode n) ∧ t = takeUnknownOpcode n s) ∨
    (s.status = .run ∧ ∃ i u, decodeWith m (fetch s) = .good i ∧ exec i s = .next u ∧ t = advanceOrHalt u) := by
  unfold stepWith at h
  cases hs : s.status with
  | halt => simp_all
  | abort n => simp [hs] at h
  | run =>
    simp only [hs, cycle] at h
    cases hd : decodeWith m (fetch s) with
    | bad e =>
      obtain ⟨n⟩ := e
      simp only [hd] at h
      cases h
      exact .inr (.inl ⟨rfl, n, rfl, rfl⟩)
    | good i =>
      simp only [hd] at h
      cases he : exec i s with
      | next u =>
        simp only [he] at h
        cases h
        exact .inr (.inr ⟨rfl, i, u, rfl, he, rfl⟩)
      | fault r => simp [he] at h
      | refused r => simp [he] at h

theorem runWith_zero (m : OpMap) (s : State) : runWith m 0 s = .next s := rfl

/-- A run of `k + 1` steps that answers a next state is a step and a run of `k`. -/
theorem runWith_succ (m : OpMap) (k : Nat) (s u : State) :
    runWith m (k + 1) s = .next u ↔ ∃ t, stepWith m s = .next t ∧ runWith m k t = .next u := by
  simp only [runWith]
  cases stepWith m s <;> simp

/-- The same, with the last step split off. -/
theorem runWith_succ_last (m : OpMap) (k : Nat) (s u : State) :
    runWith m (k + 1) s = .next u ↔ ∃ t, runWith m k s = .next t ∧ stepWith m t = .next u := by
  induction k generalizing s with
  | zero => simp [runWith_succ, runWith_zero]
  | succ k ih =>
    rw [runWith_succ]
    constructor
    · rintro ⟨t, hs, hr⟩
      obtain ⟨v, hv, hu⟩ := (ih t).mp hr
      exact ⟨v, (runWith_succ m k s v).mpr ⟨t, hs, hv⟩, hu⟩
    · rintro ⟨v, hv, hu⟩
      obtain ⟨t, hs, hr⟩ := (runWith_succ m k s v).mp hv
      exact ⟨t, hs, (ih t).mpr ⟨v, hr, hu⟩⟩

/-- A state is a launch state exactly when reset leaves it as it is. -/
theorem isLaunch_iff (s : State) : IsLaunch s ↔ resetCore s = s := by
  constructor
  · rintro ⟨ha, hb, hc, hp, ho, hs⟩
    cases s
    simp_all [resetCore, State.afterReset]
  · intro h
    rw [← h]
    exact ⟨rfl, rfl, rfl, rfl, rfl, rfl⟩

/-- The host's run of this machine is the run under the default opcode map. -/
theorem core_run_eq (k : Nat) (s : State) : Host.Core.run Sys2Proof.core k s = runWith defaultOpMap k s := by
  induction k generalizing s with
  | zero => rfl
  | succ k ih =>
    have hstep : Sys2Proof.core.step s = stepWith defaultOpMap s := rfl
    simp only [Host.Core.run, runWith]
    rw [hstep]
    cases stepWith defaultOpMap s with
    | next t => exact ih t
    | fault r => rfl
    | refused r => rfl

end Sys2Proof.Machine
end

