-- ==== Sys2Proof/Tests/Slice0.lean ====
section
/-! SUPPORT. The author's own tests: the well-formedness checks refuse an ill-formed term each, written-out bytes decode to
their instructions, one cycle per instruction against the vectors of spec/95_test_vectors.md, and for every statement with
hypotheses a concrete state that meets them. -/

namespace Sys2Proof.Tests

open Sys2Proof Sys2Proof.Machine

/-! ### Helpers -/

/-- A running machine about to fetch `byte`, with the single-cycle layout of spec/95_test_vectors.md: LEN = 16, PORT_IN = 9. -/
def start (byte : Byte) (a b : Nibble) (cf : Bool) (pc out : Nibble) : State :=
  placeForFetch { a := a, b := b, cf := cf, pc := pc, portOut := out, status := .run, mem := [], len := 16, portIn := 9 } byte

/-- The six elements as the vectors write them. -/
def shows (s : State) (a b : Nibble) (cf : Bool) (pc out : Nibble) (st : Status) : Bool :=
  decide (s.a = a ∧ s.b = b ∧ s.cf = cf ∧ s.pc = pc ∧ s.portOut = out ∧ s.status = st)

/-- The outcome is a next state of which `p` holds. -/
def nextIs (o : Host.Outcome State Fault Refusal) (p : State → Bool) : Bool :=
  match o with
  | .next t => p t
  | .fault _ => false
  | .refused _ => false

/-- One step shows these six elements. -/
def stepShows (s : State) (a b : Nibble) (cf : Bool) (pc out : Nibble) (st : Status) : Bool :=
  nextIs (step s) fun t => shows t a b cf pc out st

/-- A launch state over a program, PORT_IN = 9. -/
def launched (bytes : List Byte) (h : bytes.length ≤ 16) : State :=
  State.afterReset (Memory.ofBytes bytes) ⟨bytes.length, Nat.lt_succ_of_le h⟩ 9

/-- Another admissible opcode map: `AddB` and `MovA` change places. -/
def swappedMap : OpMap := fun k => if k = .addB then 0x3 else if k = .movA then 0x5 else defaultOpMap k

/-! ### The well-formedness checks refuse ill-formed terms -/

theorem test_map_two_kinds_on_one_nibble_refused : ¬OpMap.wellFormed (fun k => if k = .jump then 0 else defaultOpMap k) := by
  decide

theorem test_map_without_nibble_zero_refused : ¬OpMap.wellFormed (fun k => if k = .addA then 8 else defaultOpMap k) := by
  decide

theorem test_wide_immediate_refused : ¬AbstractInstr.wellFormed { kind := .jump, imm := 16 } := by decide

theorem test_immediate_of_input_refused : ¬AbstractInstr.wellFormed { kind := .inA, imm := 3 } := by decide

theorem test_seventeen_bytes_refused : ¬programFits (List.replicate 17 0) := by decide

theorem test_no_instruction_refused : ¬sourceWellFormed [] := by decide

theorem test_source_with_wide_immediate_refused : ¬sourceWellFormed [⟨.movA, 16⟩] := by decide

theorem test_default_map_admitted : defaultOpMap.wellFormed := by decide

theorem test_swapped_map_admitted : swappedMap.wellFormed := by decide

/-! ### Written-out bytes (spec/30_encoding.md R57; spec/95_test_vectors.md V1, V2) -/

theorem test_decode_addA : decode 0b00001111 = .good (.addA 15) := by decide
theorem test_decode_movBtoA : decode 0b00010000 = .good .movBtoA := by decide
theorem test_decode_inA : decode 0b00100110 = .good .inA := by decide
theorem test_decode_movA : decode 0b00111101 = .good (.movA 13) := by decide
theorem test_decode_movAtoB : decode 0b01000101 = .good .movAtoB := by decide
theorem test_decode_addB : decode 0b01010111 = .good (.addB 7) := by decide
theorem test_decode_inB : decode 0b01100000 = .good .inB := by decide
theorem test_decode_movB : decode 0b01110010 = .good (.movB 2) := by decide
theorem test_decode_outFromB : decode 0b10011100 = .good .outFromB := by decide
theorem test_decode_outImmediate : decode 0b10110111 = .good (.outImmediate 7) := by decide
theorem test_decode_jumpIfNoCarry : decode 0b11100000 = .good (.jumpIfNoCarry 0) := by decide
theorem test_decode_jump : decode 0b11110010 = .good (.jump 2) := by decide
theorem test_decode_unassigned : decode 0x8F = .bad (.unknownOpcode 8) ∧ decode 0xA5 = .bad (.unknownOpcode 10) ∧
    decode 0xC0 = .bad (.unknownOpcode 12) ∧ decode 0xDF = .bad (.unknownOpcode 13) := by decide

/-- The decoder's pairs for the operand classes (V2): verbatim for 0x45 and 0x1F, 0 for 0x26 and 0x9C. -/
theorem test_decoded_operands :
    decodePair defaultOpMap 0x45 = .good (.movAtoB, 5) ∧ decodePair defaultOpMap 0x1F = .good (.movBtoA, 15) ∧
    decodePair defaultOpMap 0x26 = .good (.inA, 0) ∧ decodePair defaultOpMap 0x9C = .good (.outFromB, 0) := by decide

/-- The encoder's examples (R58): canonical bytes, and wide immediates masked. -/
theorem test_encoder_examples :
    encode (.movA 13) = 0x3D ∧ encode .inB = 0x60 ∧ encodeAbstract defaultOpMap ⟨.jump, 18⟩ = 0xF2 ∧
    encodeAbstract defaultOpMap ⟨.movA, 255⟩ = 0x3F ∧ encodeAbstract defaultOpMap ⟨.addB, 16⟩ = 0x50 := by decide

/-- The counts of R61 and R62 over the 256 bytes: 192 decode, of which 117 come back when encoded and 75 do not; 64 fail. -/
def byteClass (b : Byte) : Nat :=
  match decode b with
  | .bad _ => 0
  | .good i => if encode i = b then 1 else 2

set_option maxRecDepth 4000 in
theorem test_byte_counts :
    let classes := (List.range 256).map fun n => byteClass (BitVec.ofNat 8 n)
    classes.count 0 = 64 ∧ classes.count 1 = 117 ∧ classes.count 2 = 75 := by decide

theorem test_decodeTableWord : decodeTableWord 8 0xB7 = some (.outImmediate 7) ∧ decodeTableWord 8 0xD0 = none := by decide

/-! ### One cycle each (spec/95_test_vectors.md V3 to V7, V9) -/

theorem test_addA_overflow : stepShows (start 0x02 15 0 false 0 0) 1 0 true 1 0 .run = true := by decide
theorem test_addA_sticky : stepShows (start 0x08 7 0 true 3 0) 15 0 true 4 0 .run = true := by decide
theorem test_addB_overflow : stepShows (start 0x57 3 9 false 2 0) 3 0 true 3 0 .run = true := by decide
theorem test_addB_fits : stepShows (start 0x56 3 9 false 2 0) 3 15 false 3 0 .run = true := by decide
theorem test_movA : stepShows (start 0x3D 7 2 true 4 0) 13 2 false 5 0 .run = true := by decide
theorem test_movB : stepShows (start 0x72 7 2 true 4 0) 7 2 false 5 0 .run = true := by decide
theorem test_movAtoB : stepShows (start 0x45 6 1 true 4 0) 6 6 false 5 0 .run = true := by decide
theorem test_movBtoA : stepShows (start 0x1F 3 12 false 4 0) 12 12 false 5 0 .run = true := by decide
theorem test_jump_lands_past : stepShows (start 0xF7 1 2 true 4 3) 1 2 false 8 3 .run = true := by decide
theorem test_jump_fifteen_wraps : stepShows (start 0xFF 1 2 false 4 3) 1 2 false 0 3 .run = true := by decide
theorem test_jumpIfNoCarry_taken : stepShows (start 0xE7 1 2 false 4 3) 1 2 false 8 3 .run = true := by decide
theorem test_jumpIfNoCarry_not_taken : stepShows (start 0xE7 1 2 true 4 3) 1 2 false 5 3 .run = true := by decide
theorem test_inA : stepShows (start 0x2B 1 2 true 4 3) 9 2 false 5 3 .run = true := by decide
theorem test_inB : stepShows (start 0x60 1 2 true 4 3) 1 9 false 5 3 .run = true := by decide
theorem test_outFromB : stepShows (start 0x9C 1 2 true 4 3) 1 2 false 5 2 .run = true := by decide
theorem test_outImmediate : stepShows (start 0xBF 1 2 true 4 3) 1 2 false 5 15 .run = true := by decide
theorem test_jump_fourteen_halts : stepShows (start 0xFE 1 2 false 4 3) 1 2 false 15 3 .halt = true := by decide
theorem test_abort : stepShows (start 0xA5 1 2 true 4 3) 1 2 true 4 3 (.abort 10) = true := by decide

/-- V9: a fetch past the program gives the zero byte. -/
theorem test_fetch_fallback :
    stepShows { launched [0x31, 0x32] (by decide) with pc := 5 } 0 0 false 6 0 .halt = true := by decide

/-- P3, the source's jump overshoot, and P7, the one-byte program; each is one cycle. -/
theorem test_jump_overshoot : stepShows (launched [0xF2, 0x31, 0x72] (by decide)) 0 0 false 3 0 .halt = true := by decide
theorem test_one_byte_program : stepShows (launched [0xB7] (by decide)) 0 0 false 1 7 .halt = true := by decide

/-- P8: State.reset has an empty memory, so its first step is the synthetic `Add(A, 0)`. -/
theorem test_step_from_reset : stepShows State.reset 0 0 false 1 0 .halt = true := by decide

/-- The host's placing: the very next step runs the word, also where it is the zero byte. -/
theorem test_withFetchWord : stepShows (State.reset.withFetchWord 8 0x3D) 13 0 false 1 0 .halt = true := by decide
theorem test_withFetchWord_zero_byte :
    fetch ((start 0xB7 1 2 true 4 3).withFetchWord 8 0x00) = 0 ∧ fetch (start 0xB7 1 2 true 4 3) = 0xB7 := by decide

/-- S7, the execute stages one after another: the input 9 reaches the output latch. -/
theorem test_input_reaches_output :
    nextIs (execAll [.inA, .movAtoB, .outFromB] (launched [] (by decide))) (fun t => t.portOut = 9) = true := by decide

/-- S8: 17 bytes are refused; and an empty source is. -/
theorem test_boot_overflow : boot (List.replicate 17 0) 9 = .refused .memoryOverflow := rfl
theorem test_assemble_empty : assemble defaultOpMap [] = .refused .emptyProgram := rfl

/-! ### The hypotheses of every statement can be met, clause by clause -/

theorem witness_BranchTakenExactlyWhenResolved :
    exec (.jump 15) (start 0 1 2 true 4 3) = .next { start 0 1 2 true 4 3 with pc := 15, cf := false } ∧
    exec (.jumpIfNoCarry 0) (start 0 1 2 false 4 3) = .next { start 0 1 2 false 4 3 with pc := 0 } ∧
    exec (.jumpIfNoCarry 0) (start 0 1 2 true 4 3) = .next { start 0 1 2 true 4 3 with cf := false } := ⟨rfl, rfl, rfl⟩

/-- An Add whose sum is 16, one whose sum is 15, and a kind that is no Add. -/
theorem witness_CarryWrittenByAllReadByOneJump :
    exec (.addA 15) (start 0 1 2 false 4 3) = .next { start 0 1 2 false 4 3 with a := 0, cf := true } ∧
    exec (.addB 13) (start 0 1 2 true 4 3) = .next { start 0 1 2 true 4 3 with b := 15 } ∧
    exec (.movA 0) (start 0 1 2 true 4 3) = .next { start 0 1 2 true 4 3 with a := 0, cf := false } ∧
    (Instr.addA 15).kind = .addA ∧ (Instr.addB 13).kind = .addB ∧ (Instr.movA 0).kind ≠ .addA ∧
    (Instr.movA 0).kind ≠ .addB ∧ (Instr.movA 0).kind ≠ .jumpIfNoCarry := ⟨rfl, rfl, rfl, by decide⟩

/-- `Mov(B, 7)` writes B and reads neither register; `Mov(A, 7)` writes A and reads neither. -/
theorem witness_RegistersTouchedExactlyAsListed :
    exec (.movB 7) (start 0 1 2 true 4 3) = .next { start 0 1 2 true 4 3 with b := 7, cf := false } ∧
    (Instr.movB 7).kind ∉ [Kind.addA, .movA, .movBtoA, .inA] ∧ (Instr.movB 7).kind ∉ [Kind.addA, .movAtoB] ∧
    (Instr.movB 7).kind ∉ [Kind.addB, .movBtoA, .outFromB] ∧ (Instr.movB 7).kind ∈ [Kind.movB, .movAtoB, .inB] ∧
    exec (.movA 7) (start 0 1 2 true 4 3) = .next { start 0 1 2 true 4 3 with a := 7, cf := false } ∧
    (Instr.movA 7).kind ∉ [Kind.addB, .movB, .movAtoB, .inB] ∧ (Instr.movA 7).kind ∉ [Kind.addA, .movAtoB] ∧
    (Instr.movA 7).kind ∈ [Kind.movA, .movBtoA, .inA] := by
  refine ⟨rfl, ?_, ?_, ?_, ?_, rfl, ?_, ?_, ?_⟩ <;> decide

/-- `OutFromB` writes the output latch and reads no latch; `MovAtoB` touches neither. -/
theorem witness_PortLatchesAreIndependent :
    exec .outFromB (start 0 1 2 true 4 3) = .next { start 0 1 2 true 4 3 with portOut := 2, cf := false } ∧
    Instr.outFromB.kind ∉ [Kind.inA, .inB] ∧ Instr.outFromB.kind ∈ [Kind.outFromB, .outImmediate] ∧
    exec .movAtoB (start 0 1 2 true 4 3) = .next { start 0 1 2 true 4 3 with b := 1, cf := false } ∧
    Instr.movAtoB.kind ∉ [Kind.outFromB, .outImmediate] := by
  refine ⟨rfl, ?_, ?_, rfl, ?_⟩ <;> decide

theorem witness_CarrySurvivesAnyNumberOfAdds :
    (∀ i ∈ [Instr.addA 0, .addB 15], i.kind = .addA ∨ i.kind = .addB) ∧ (start 0 1 2 true 4 3).cf = true ∧
    Instr.inA.kind ≠ .addA ∧ Instr.inA.kind ≠ .addB := by decide

theorem witness_DecodeOfEncodeIsIdentityForEveryMap :
    swappedMap.wellFormed ∧ AbstractInstr.wellFormed ⟨.jump, 15⟩ ∧ AbstractInstr.wellFormed ⟨.addA, 0⟩ ∧
    AbstractInstr.wellFormed ⟨.outFromB, 0⟩ := by decide

theorem witness_DecoderFollowsTheOpcodeMap :
    swappedMap.wellFormed ∧ swappedMap .inA = highNibble 0x2F ∧ swappedMap .movA = highNibble 0x5F ∧
    (∀ k, swappedMap k ≠ highNibble 0x8F) := ⟨by decide, by decide, by decide, fun k => by cases k <;> decide⟩

theorem witness_ReencodingRestoresExactlyCanonicalBytes :
    defaultOpMap.wellFormed ∧ decodeWith defaultOpMap 0x4F = .good .movAtoB ∧ decodeWith defaultOpMap 0x40 = .good .movAtoB ∧
    decodeWith defaultOpMap 0xFF = .good (.jump 15) := by decide

theorem witness_LowNibbleOfImmediatelessKindsIsIgnored :
    highNibble (fetch { start 0x4F 6 1 true 4 0 with mem := [(4, 0x40)] }) = highNibble (fetch (start 0x4F 6 1 true 4 0)) ∧
    decodeWith defaultOpMap (fetch (start 0x4F 6 1 true 4 0)) = .good .movAtoB ∧ Instr.movAtoB.kind.operandClass ≠ .imm ∧
    stepWith defaultOpMap (start 0x4F 6 1 true 4 0) = .next { start 0x4F 6 1 true 4 0 with b := 6, cf := false, pc := 5 } :=
  ⟨by decide, by decide, by decide, rfl⟩

theorem witness_SyntheticZeroByteAlwaysDecodes : swappedMap.wellFormed := by decide

/-- A cell at the last address, no cell just beyond it, and a run over one cell. -/
theorem witness_FetchReadsTheCellOrZero :
    (let s := { launched [0x31, 0x32] (by decide) with pc := 1 }; s.pc.toNat < s.len.val) ∧
    (let s := { launched [0x31, 0x32] (by decide) with pc := 2 }; s.len.val ≤ s.pc.toNat) ∧
    defaultOpMap.wellFormed ∧
    (let s := launched [0x31] (by decide);
      IsLaunch s ∧ 1 ≤ s.len.val ∧ runWith defaultOpMap 0 s = .next s ∧ s.status = .run) :=
  ⟨by decide, by decide, by decide, ⟨rfl, rfl, rfl, rfl, rfl, rfl⟩, by decide, rfl, rfl⟩

theorem witness_StepRunsTheDecodedInstruction :
    (start 0xFF 1 2 true 4 3).status = .run ∧ decodeWith defaultOpMap (fetch (start 0xFF 1 2 true 4 3)) = .good (.jump 15) ∧
    exec (.jump 15) (start 0xFF 1 2 true 4 3) = .next { start 0xFF 1 2 true 4 3 with pc := 15, cf := false } :=
  ⟨rfl, by decide, rfl⟩

theorem witness_UndecodableByteAbortsAndChangesNothingElse :
    (start 0xDF 1 2 true 4 3).status = .run ∧ ∀ k, defaultOpMap k ≠ highNibble (fetch (start 0xDF 1 2 true 4 3)) :=
  ⟨rfl, fun k => by cases k <;> decide⟩

theorem witness_EndedMachinePerformsNoCycle :
    ({ State.reset with status := .halt } : State).status = .halt ∧
    ({ State.reset with status := .abort 15 } : State).status = .abort 15 := by decide

/-- One cycle that halts at the last cell, one that runs on just before it. -/
theorem witness_HaltsExactlyWhenLookAheadReachesLength :
    (let s := start 0xFE 1 2 false 4 3; let t := { s with pc := 15, status := .halt };
      s.status = .run ∧ stepWith defaultOpMap s = .next t ∧ ∀ n, t.status ≠ .abort n) ∧
    (let s := start 0xFD 1 2 false 4 3; let t := { s with pc := 14 };
      s.status = .run ∧ stepWith defaultOpMap s = .next t ∧ ∀ n, t.status ≠ .abort n) :=
  ⟨⟨rfl, rfl, by decide⟩, rfl, rfl, by decide⟩

/-- A cycle that leaves `PC` = 15, and cycles that leave it 0 over lengths 2 and 1. -/
theorem witness_CounterFifteenAlwaysHalts :
    (let s := start 0xFE 1 2 false 4 3; let t := { s with pc := 15, status := .halt };
      s.status = .run ∧ stepWith defaultOpMap s = .next t ∧ (∀ n, t.status ≠ .abort n) ∧ t.pc = 15) ∧
    (let s := launched [0xFF, 0x00] (by decide);
      s.status = .run ∧ stepWith defaultOpMap s = .next s ∧ (∀ n, s.status ≠ .abort n) ∧ s.pc = 0) ∧
    (let s := launched [0xFF] (by decide); let t := { s with status := .halt };
      s.status = .run ∧ stepWith defaultOpMap s = .next t ∧ (∀ n, t.status ≠ .abort n) ∧ t.pc = 0) :=
  ⟨⟨rfl, rfl, by decide, rfl⟩, ⟨rfl, rfl, by decide, rfl⟩, rfl, rfl, by decide, rfl⟩

/-- An instruction at address 15, where the increment wraps. -/
theorem witness_EveryInstructionAdvancesPcByOne :
    (start 0xB7 1 2 false 15 3).status = .run ∧
    decodeWith defaultOpMap (fetch (start 0xB7 1 2 false 15 3)) = .good (.outImmediate 7) ∧
    stepWith defaultOpMap (start 0xB7 1 2 false 15 3) = .next { start 0xB7 1 2 false 15 3 with portOut := 7, pc := 0 } :=
  ⟨rfl, by decide, rfl⟩

/-- Taken jumps with immediates 0, 14 and 15, one of them conditional. -/
theorem witness_TakenJumpLandsPastItsImmediateOrHalts :
    (start 0xE0 1 2 false 4 3).status = .run ∧
    decodeWith defaultOpMap (fetch (start 0xE0 1 2 false 4 3)) = .good (.jumpIfNoCarry 0) ∧
    taken (Instr.jumpIfNoCarry 0).kind (start 0xE0 1 2 false 4 3).cf = true ∧ (Instr.jumpIfNoCarry 0).operand.toNat ≤ 14 ∧
    decodeWith defaultOpMap (fetch (start 0xFE 1 2 true 4 3)) = .good (.jump 14) ∧ (Instr.jump 14).operand.toNat ≤ 14 ∧
    decodeWith defaultOpMap (fetch (start 0xFF 1 2 true 4 3)) = .good (.jump 15) ∧ (Instr.jump 15).operand = 15 ∧
    taken (Instr.jump 15).kind (start 0xFF 1 2 true 4 3).cf = true := by decide

/-- A jump onto itself at the last address that allows it (14 of 16), and one at address 0. -/
theorem witness_JumpOntoItselfRunsForEver :
    (let s := start 0xFD 1 2 true 14 3; s.status = .run ∧ decodeWith defaultOpMap (fetch s) = .good (.jump (s.pc - 1)) ∧
      s.pc.toNat + 2 ≤ s.len.val) ∧
    (let s := launched [0xFF, 0x00] (by decide);
      s.status = .run ∧ decodeWith defaultOpMap (fetch s) = .good (.jump (s.pc - 1)) ∧ s.pc.toNat + 2 ≤ s.len.val) := by
  decide

/-- Two `JumpIfNoCarry` one after the other, the first not taken. -/
theorem witness_SecondJumpIfNoCarryIsAlwaysTaken :
    let s : State := { launched [0xE7, 0xEF, 0x00] (by decide) with cf := true }
    let t : State := { s with cf := false, pc := 1 }
    s.status = .run ∧ decodeWith defaultOpMap (fetch s) = .good (.jumpIfNoCarry 7) ∧ stepWith defaultOpMap s = .next t ∧
      t.status = .run ∧ decodeWith defaultOpMap (fetch t) = .good (.jumpIfNoCarry 15) :=
  ⟨rfl, by decide, rfl, rfl, by decide⟩

theorem witness_OutputLatchChangesOnlyByOutInstructions :
    (stepWith defaultOpMap (start 0x90 1 2 true 4 3) = .next { start 0x90 1 2 true 4 3 with portOut := 2, cf := false, pc := 5 } ∧
      ({ start 0x90 1 2 true 4 3 with portOut := 2, cf := false, pc := 5 } : State).portOut ≠ (start 0x90 1 2 true 4 3).portOut) :=
  ⟨rfl, by decide⟩

theorem witness_StepSeesMemoryOnlyThroughTheFetch :
    stepWith defaultOpMap (start 0x3D 7 2 true 4 0) = .next { start 0x3D 7 2 true 4 0 with a := 13, cf := false, pc := 5 } ∧
    Memory.read [(4, 0x3D), (5, 0x80)] (start 0x3D 7 2 true 4 0).pc.toNat =
      (start 0x3D 7 2 true 4 0).mem.read (start 0x3D 7 2 true 4 0).pc.toNat := ⟨rfl, by decide⟩

/-- Two moments of one run with the same `PC`: the loop of program P5. -/
theorem witness_EveryFetchOfAnAddressInARunIsTheSame :
    let s := launched [0xFF, 0x00] (by decide)
    runWith defaultOpMap 0 s = .next s ∧ runWith defaultOpMap 2 s = .next s ∧ s.pc = s.pc := ⟨rfl, rfl, rfl⟩

/-- A running machine before the last cell of two, and an aborted one. -/
theorem witness_LastCellIsNeverFetched :
    (let s := launched [0xFF, 0x80] (by decide);
      IsLaunch s ∧ runWith defaultOpMap 1 s = .next s ∧ s.status ≠ .halt ∧ 2 ≤ s.len.val) ∧
    (let s := launched [0x80, 0x80] (by decide); let t := { s with status := .abort 8 };
      IsLaunch s ∧ runWith defaultOpMap 1 s = .next t ∧ t.status ≠ .halt ∧ 2 ≤ s.len.val) :=
  ⟨⟨⟨rfl, rfl, rfl, rfl, rfl, rfl⟩, rfl, by decide, by decide⟩, ⟨rfl, rfl, rfl, rfl, rfl, rfl⟩, rfl, by decide, by decide⟩

theorem witness_LastByteNeverInfluencesARun :
    let s := launched [0xB7, 0x00] (by decide)
    IsLaunch s ∧ 2 ≤ s.len.val ∧ (∀ addr, addr + 1 < s.len.val → Memory.read [(0, 0xB7), (1, 0x80)] addr = s.mem.read addr) ∧
      runWith defaultOpMap 1 s = .next { s with portOut := 7, pc := 1, status := .halt } := by
  refine ⟨⟨rfl, rfl, rfl, rfl, rfl, rfl⟩, by decide, fun addr h => ?_, rfl⟩
  obtain rfl : addr = 0 := by
    have h' : addr + 1 < 2 := h
    omega
  decide

theorem witness_StraightLineRunHaltsAtLastCell :
    let s := launched [0x01, 0x80] (by decide)
    IsLaunch s ∧ 2 ≤ s.len.val ∧ (∀ addr, addr + 1 < s.len.val →
      ∃ i, decodeWith defaultOpMap (s.mem.read addr) = .good i ∧ i.kind ≠ .jump ∧ i.kind ≠ .jumpIfNoCarry) ∧ 1 < s.len.val := by
  refine ⟨⟨rfl, rfl, rfl, rfl, rfl, rfl⟩, by decide, fun addr h => ⟨.addA 1, ?_, by decide, by decide⟩, by decide⟩
  obtain rfl : addr = 0 := by
    have h' : addr + 1 < 2 := h
    omega
  decide

/-- `Add(B, 1)` and its spelling under the swapped map. -/
theorem witness_RunsAgreeUnderAnyTwoOpcodeMaps :
    let s := launched [0x51] (by decide)
    defaultOpMap.wellFormed ∧ swappedMap.wellFormed ∧ IsLaunch s ∧ 1 ≤ s.len.val ∧
      (∀ addr, addr < s.len.val → ∃ i, decodeWith defaultOpMap (s.mem.read addr) = .good i ∧
        decodeWith swappedMap (Memory.read [(0, 0x31)] addr) = .good i) := by
  refine ⟨by decide, by decide, ⟨rfl, rfl, rfl, rfl, rfl, rfl⟩, by decide, fun addr h => ⟨.addB 1, ?_⟩⟩
  obtain rfl : addr = 0 := by
    have h' : addr < 1 := h
    omega
  decide

/-- One cell that decodes, one that does not, and no cell. -/
theorem witness_MemoryOfAtMostOneCellRunsOneCycle :
    defaultOpMap.wellFormed ∧
    (let s := launched [0xB7] (by decide);
      IsLaunch s ∧ s.len.val ≤ 1 ∧ decodeWith defaultOpMap (fetch s) = .good (.outImmediate 7)) ∧
    (let s := launched [0x8F] (by decide);
      IsLaunch s ∧ s.len.val ≤ 1 ∧ decodeWith defaultOpMap (fetch s) = .bad (.unknownOpcode 8)) ∧
    (let s := launched [] (by decide); IsLaunch s ∧ s.len.val ≤ 1 ∧ s.len.val = 0) :=
  ⟨by decide, ⟨⟨rfl, rfl, rfl, rfl, rfl, rfl⟩, by decide, by decide⟩, ⟨⟨rfl, rfl, rfl, rfl, rfl, rfl⟩, by decide, by decide⟩,
    ⟨rfl, rfl, rfl, rfl, rfl, rfl⟩, by decide, by decide⟩

/-- A running machine with the invariant that halts, and one that aborts. -/
theorem witness_StepKeepsTheInvariant :
    (let s := launched [0xB7, 0x00] (by decide);
      Inv defaultOpMap s ∧ stepWith defaultOpMap s = .next { s with portOut := 7, pc := 1, status := .halt }) ∧
    (let s := launched [0x8F] (by decide);
      Inv defaultOpMap s ∧ stepWith defaultOpMap s = .next { s with status := .abort 8 }) := by
  refine ⟨⟨⟨by decide, by decide, by decide, fun n h => ?_⟩, rfl⟩, ⟨by decide, by decide, by decide, fun n h => ?_⟩, rfl⟩ <;>
    cases h

theorem witness_BootedStateHoldsTheProgram :
    boot [0x60, 0x90, 0x00] 9 = .next (launched [0x60, 0x90, 0x00] (by decide)) ∧ 2 < [0x60, 0x90, (0x00 : Byte)].length :=
  ⟨rfl, by decide⟩

theorem witness_MemoryOverflowExactlyBeyondSixteenBytes :
    16 < (List.replicate 17 (0 : Byte)).length ∧ (List.replicate 16 (0 : Byte)).length ≤ 16 := by decide

theorem witness_EmptyProgramIsTheOnlyAssemblerRefusal : [(⟨.jump, 18⟩ : AbstractInstr)] ≠ [] := by decide

theorem witness_AssembledProgramDecodesBackFromMemory :
    defaultOpMap.wellFormed ∧ sourceWellFormed [⟨.inB, 0⟩, ⟨.jump, 15⟩] ∧
    [(⟨.inB, 0⟩ : AbstractInstr), ⟨.jump, 15⟩].length ≤ 16 ∧ 1 < [(⟨.inB, 0⟩ : AbstractInstr), ⟨.jump, 15⟩].length := by decide

/-- A run whose second step is an input to A, and one whose first is an input to B. -/
theorem witness_EveryInputOfARunReadsTheSameLatch :
    (let s := launched [0x72, 0x20, 0x00] (by decide); let t := { s with b := 2, pc := 1 };
      runWith defaultOpMap 1 s = .next t ∧ t.status = .run ∧
        stepWith defaultOpMap t = .next { t with a := 9, pc := 2, status := .halt } ∧
        decodeWith defaultOpMap (fetch t) = .good .inA) ∧
    (let s := launched [0x60, 0x90, 0x00] (by decide);
      runWith defaultOpMap 0 s = .next s ∧ s.status = .run ∧ stepWith defaultOpMap s = .next { s with b := 9, pc := 1 } ∧
        decodeWith defaultOpMap (fetch s) = .good .inB) :=
  ⟨⟨rfl, rfl, rfl, by decide⟩, rfl, rfl, rfl, by decide⟩

end Sys2Proof.Tests
end

section
/-! The registers and the carry flag (spec/10_state.md): which instructions write and read them. Every arm of the execute
stage is one of three shared operations, so what an arm writes and reads is proved of the operations, for either register at
once, and read off per instruction kind. -/

namespace Sys2Proof.Machine

/-! ### The execute stage as one of three operations -/

/-- The shared operation an arm of the execute stage performs, with its parameters. -/
inductive Operation where
  | add (r : Reg) (imm : Nibble)
  | transfer (dst : Dest) (src : Source)
  | branch (k : Kind) (target : Nibble)

/-- The state the operation leaves. -/
def Operation.run : Operation → State → State
  | .add r imm, s => addImmediate r imm s
  | .transfer dst src, s => Machine.transfer dst src s
  | .branch k target, s => Machine.branch k target s

/-- The operation each instruction stands for. -/
def operationOf : Instr → Operation
  | .addA imm => .add .A imm
  | .addB imm => .add .B imm
  | .movA imm => .transfer (.reg .A) (.imm imm)
  | .movB imm => .transfer (.reg .B) (.imm imm)
  | .movAtoB => .transfer (.reg .B) (.reg .A)
  | .movBtoA => .transfer (.reg .A) (.reg .B)
  | .inA => .transfer (.reg .A) .portIn
  | .inB => .transfer (.reg .B) .portIn
  | .outFromB => .transfer .portOut (.reg .B)
  | .outImmediate imm => .transfer .portOut (.imm imm)
  | .jumpIfNoCarry imm => .branch .jumpIfNoCarry imm
  | .jump imm => .branch .jump imm

theorem exec_eq_run (i : Instr) (s : State) : exec i s = .next ((operationOf i).run s) := by
  cases i <;> rfl

/-- What `exec` answers as a next state is what the operation leaves. -/
theorem eq_run_of_exec {i : Instr} {s t : State} (h : exec i s = .next t) : t = (operationOf i).run s := by
  rw [exec_eq_run] at h
  cases h
  rfl

/-! ### What an operation writes and reads -/

/-- The operation writes the register. -/
def Operation.Writes : Operation → Reg → Prop
  | .add q _, r => q = r
  | .transfer dst _, r => dst = .reg r
  | .branch _ _, _ => False

/-- The value in the register takes part in the operation. -/
def Operation.Reads : Operation → Reg → Prop
  | .add q _, r => q = r
  | .transfer _ src, r => src = .reg r
  | .branch _ _, _ => False

/-- The value of the carry flag decides over another field. -/
def Operation.ReadsCarry : Operation → Prop
  | .add _ _ => False
  | .transfer _ _ => False
  | .branch k _ => k = .jumpIfNoCarry

/-- The writers of A in the list of spec/10_state.md R12. -/
theorem operationOf_writes_A (i : Instr) : (operationOf i).Writes .A ↔ i.kind ∈ [.addA, .movA, .movBtoA, .inA] := by
  cases i <;> simp [operationOf, Operation.Writes, Instr.kind]

/-- The writers of B in the list of spec/10_state.md R12. -/
theorem operationOf_writes_B (i : Instr) : (operationOf i).Writes .B ↔ i.kind ∈ [.addB, .movB, .movAtoB, .inB] := by
  cases i <;> simp [operationOf, Operation.Writes, Instr.kind]

/-- The readers of A in the list of spec/10_state.md R12. -/
theorem operationOf_reads_A (i : Instr) : (operationOf i).Reads .A ↔ i.kind ∈ [.addA, .movAtoB] := by
  cases i <;> simp [operationOf, Operation.Reads, Instr.kind]

/-- The readers of B in the list of spec/10_state.md R12. -/
theorem operationOf_reads_B (i : Instr) : (operationOf i).Reads .B ↔ i.kind ∈ [.addB, .movBtoA, .outFromB] := by
  cases i <;> simp [operationOf, Operation.Reads, Instr.kind]

theorem operationOf_readsCarry (i : Instr) : (operationOf i).ReadsCarry ↔ i.kind = .jumpIfNoCarry := by
  cases i <;> simp [operationOf, Operation.ReadsCarry, Instr.kind]

/-- "There is no instruction that outputs `A`" (spec/10_state.md R12). -/
theorem operationOf_ne_output_A (i : Instr) : operationOf i ≠ .transfer .portOut (.reg .A) := by
  cases i <;> simp [operationOf]

/-! ### Register reads and register updates across the other updates -/

@[simp] theorem State.readReg_writeCarry (s : State) (c : Bool) (r : Reg) : (s.writeCarry c).readReg r = s.readReg r := by
  cases r <;> rfl

@[simp] theorem State.readReg_writePc (s : State) (v : Nibble) (r : Reg) : (s.writePc v).readReg r = s.readReg r := by
  cases r <;> rfl

@[simp] theorem State.readReg_writePortOut (s : State) (v : Nibble) (r : Reg) :
    (s.writePortOut v).readReg r = s.readReg r := by
  cases r <;> rfl

@[simp] theorem State.readReg_resetCore (s : State) (r : Reg) : (resetCore s).readReg r = 0 := by
  cases r <;> rfl

/-- Writing back what a register holds changes nothing. -/
theorem State.writeReg_readReg (s : State) (r : Reg) : s.writeReg r (s.readReg r) = s := by
  cases r <;> rfl

theorem State.writeReg_writeReg_same (s : State) (r : Reg) (v w : Nibble) :
    (s.writeReg r v).writeReg r w = s.writeReg r w := by
  cases r <;> rfl

theorem State.writeReg_writeReg_comm (s : State) (q r : Reg) (v w : Nibble) (h : q ≠ r) :
    (s.writeReg r v).writeReg q w = (s.writeReg q w).writeReg r v := by
  cases q <;> cases r
  case A.A | B.B => exact absurd rfl h
  case A.B | B.A => rfl

theorem State.writeCarry_writeReg (s : State) (r : Reg) (v : Nibble) (c : Bool) :
    (s.writeReg r v).writeCarry c = (s.writeCarry c).writeReg r v := by
  cases r <;> rfl

theorem State.writePc_writeReg (s : State) (r : Reg) (v w : Nibble) :
    (s.writeReg r v).writePc w = (s.writePc w).writeReg r v := by
  cases r <;> rfl

theorem State.writePortOut_writeReg (s : State) (r : Reg) (v w : Nibble) :
    (s.writeReg r v).writePortOut w = (s.writePortOut w).writeReg r v := by
  cases r <;> rfl

theorem readSource_writeReg (s : State) (r : Reg) (v : Nibble) (src : Source) (h : src ≠ .reg r) :
    readSource (s.writeReg r v) src = readSource s src := by
  cases src with
  | imm w => rfl
  | reg q => exact State.readReg_writeReg_other s r q v fun hq => h (hq ▸ rfl)
  | portIn => exact State.writeReg_portIn s r v

theorem readSource_writeCarry (s : State) (c : Bool) (src : Source) : readSource (s.writeCarry c) src = readSource s src := by
  cases src with
  | imm w => rfl
  | reg q => exact State.readReg_writeCarry s c q
  | portIn => rfl

/-! ### A register that is not written, and one that is not read -/

theorem readReg_run_of_not_writes (op : Operation) (r : Reg) (s : State) (h : ¬op.Writes r) :
    (op.run s).readReg r = s.readReg r := by
  cases op with
  | add q imm =>
    simpa [Operation.run, addImmediate] using State.readReg_writeReg_other s q r _ (Ne.symm h)
  | transfer dst src =>
    cases dst with
    | reg q =>
      have hq : r ≠ q := fun hrq => h (congrArg Dest.reg hrq.symm)
      simpa [Operation.run, transfer, clearCarry, writeDest] using State.readReg_writeReg_other s q r _ hq
    | portOut => simp [Operation.run, transfer, clearCarry, writeDest]
  | branch k target =>
    simp only [Operation.run, branch, clearCarry, State.readReg_writeCarry]
    split
    · exact State.readReg_writePc s target r
    · rfl

/-- A register the operation neither reads nor writes only travels along. -/
theorem run_writeReg_of_not_writes (op : Operation) (r : Reg) (s : State) (v : Nibble) (hr : ¬op.Reads r)
    (hw : ¬op.Writes r) : op.run (s.writeReg r v) = (op.run s).writeReg r v := by
  cases op with
  | add q imm =>
    simp only [Operation.run, addImmediate, State.readReg_writeReg_other s r q v hr, State.writeReg_cf,
      State.writeReg_writeReg_comm s q r v _ hr, State.writeCarry_writeReg]
  | transfer dst src =>
    simp only [Operation.run, transfer, clearCarry, readSource_writeReg s r v src hr]
    cases dst with
    | reg q =>
      have hq : q ≠ r := fun hqr => hw (congrArg Dest.reg hqr)
      simp only [writeDest, State.writeReg_writeReg_comm s q r v _ hq, State.writeCarry_writeReg]
    | portOut => simp only [writeDest, State.writePortOut_writeReg, State.writeCarry_writeReg]
  | branch k target =>
    simp only [Operation.run, branch, clearCarry, State.writeReg_cf, State.writePc_writeReg]
    split <;> exact State.writeCarry_writeReg _ r v false

/-- A register the operation overwrites without reading it leaves no trace. -/
theorem run_writeReg_of_writes (op : Operation) (r : Reg) (s : State) (v : Nibble) (hr : ¬op.Reads r) (hw : op.Writes r) :
    op.run (s.writeReg r v) = op.run s := by
  cases op with
  | add q imm => exact absurd hw hr
  | transfer dst src =>
    cases hw
    simp only [Operation.run, transfer, writeDest, readSource_writeReg s r v src hr, State.writeReg_writeReg_same]
  | branch k target => exact hw.elim

/-- A register the operation does not read has no influence on any other field, nor on itself where it is written. -/
theorem run_writeReg_of_not_reads (op : Operation) (r : Reg) (s : State) (v : Nibble) (hr : ¬op.Reads r) :
    op.run (s.writeReg r v) = (op.run s).writeReg r ((op.run (s.writeReg r v)).readReg r) ∧
      (op.Writes r → (op.run (s.writeReg r v)).readReg r = (op.run s).readReg r) := by
  by_cases hw : op.Writes r
  · rw [run_writeReg_of_writes op r s v hr hw]
    exact ⟨(State.writeReg_readReg (op.run s) r).symm, fun _ => rfl⟩
  · rw [run_writeReg_of_not_writes op r s v hr hw, State.readReg_writeReg_same]
    exact ⟨rfl, fun h => absurd h hw⟩

/-- The output latch depends on a register only if that register is put out. -/
theorem portOut_run_writeReg (op : Operation) (r : Reg) (s : State) (v : Nibble) (h : op ≠ .transfer .portOut (.reg r)) :
    (op.run (s.writeReg r v)).portOut = (op.run s).portOut := by
  cases op with
  | add q imm => simp [Operation.run, addImmediate]
  | transfer dst src =>
    cases dst with
    | reg q => simp [Operation.run, transfer, clearCarry, writeDest]
    | portOut => exact readSource_writeReg s r v src fun hsrc => h (hsrc ▸ rfl)
  | branch k target => simp [Operation.run, branch_eq]

/-! ### The carry flag -/

/-- An Add sets the flag where the sum exceeds 15 and leaves it otherwise. -/
theorem cf_run_add (r : Reg) (imm : Nibble) (s : State) :
    ((Operation.add r imm).run s).cf = if 15 < (s.readReg r).toNat + imm.toNat then true else s.cf := rfl

/-- Every operation but an Add ends with the clear (spec/40_engine_cycle.md R74). -/
theorem cf_run_of_not_add (op : Operation) (s : State) (h : ∀ r imm, op ≠ .add r imm) : (op.run s).cf = false := by
  cases op with
  | add r imm => exact absurd rfl (h r imm)
  | transfer dst src => rfl
  | branch k target => rfl

theorem operationOf_of_kind_addA (i : Instr) (h : i.kind = .addA) : operationOf i = .add .A i.operand := by
  cases i with
  | addA imm => rfl
  | _ => cases h

theorem operationOf_of_kind_addB (i : Instr) (h : i.kind = .addB) : operationOf i = .add .B i.operand := by
  cases i with
  | addB imm => rfl
  | _ => cases h

theorem operationOf_ne_add (i : Instr) (hA : i.kind ≠ .addA) (hB : i.kind ≠ .addB) (r : Reg) (imm : Nibble) :
    operationOf i ≠ .add r imm := by
  cases i with
  | addA imm => exact absurd rfl hA
  | addB imm => exact absurd rfl hB
  | _ => nofun

/-- The resolver looks at the flag for one kind only. -/
theorem taken_eq_of_ne (k : Kind) (c d : Bool) (h : k ≠ .jumpIfNoCarry) : taken k c = taken k d := by
  cases k with
  | jumpIfNoCarry => exact absurd rfl h
  | _ => rfl

/-- With another carry flag at the start, an operation that does not read it differs at most in the flag it leaves. -/
theorem run_writeCarry_of_not_readsCarry (op : Operation) (s : State) (c : Bool) (h : ¬op.ReadsCarry) :
    op.run (s.writeCarry c) = (op.run s).writeCarry (op.run (s.writeCarry c)).cf := by
  cases op with
  | add r imm => cases r <;> rfl
  | transfer dst src =>
    simp only [Operation.run, transfer, readSource_writeCarry]
    cases dst with
    | reg q => cases q <;> rfl
    | portOut => rfl
  | branch k target =>
    simp only [Operation.run, branch_eq, State.writeCarry_cf, taken_eq_of_ne k c s.cf h]
    rfl

/-! ### The obligations -/

/-- Settles O6: the flag an operation leaves, and the one operation that reads it. -/
theorem carryWrittenByAllReadByOneJump : Obligations.CarryWrittenByAllReadByOneJump := by
  unfold Obligations.CarryWrittenByAllReadByOneJump
  refine ⟨fun i s t hexec => ?_, fun i s t c hkind hexec => ?_⟩
  · rw [eq_run_of_exec hexec]
    refine ⟨fun hA => ?_, fun hB => ?_, fun hA hB => ?_⟩
    · rw [operationOf_of_kind_addA i hA]
      exact cf_run_add .A i.operand s
    · rw [operationOf_of_kind_addB i hB]
      exact cf_run_add .B i.operand s
    · exact cf_run_of_not_add _ s (operationOf_ne_add i hA hB)
  · rw [eq_run_of_exec hexec]
    have hcarry : ¬(operationOf i).ReadsCarry := fun h => hkind ((operationOf_readsCarry i).mp h)
    exact ⟨_, exec_eq_run i (s.writeCarry c), run_writeCarry_of_not_readsCarry _ s c hcarry⟩

/-- Settles O7: each clause is a fact about the operation, the lists of R12 saying which registers it writes and reads. -/
theorem registersTouchedExactlyAsListed : Obligations.RegistersTouchedExactlyAsListed := by
  unfold Obligations.RegistersTouchedExactlyAsListed
  intro i s t hexec
  rw [eq_run_of_exec hexec]
  refine ⟨fun hA => ?_, fun hB => ?_, fun hA v => ?_, fun hB v => ?_, fun v => ?_⟩
  · exact readReg_run_of_not_writes _ .A s (mt (operationOf_writes_A i).mp hA)
  · exact readReg_run_of_not_writes _ .B s (mt (operationOf_writes_B i).mp hB)
  · obtain ⟨hframe, hwritten⟩ := run_writeReg_of_not_reads _ .A s v (mt (operationOf_reads_A i).mp hA)
    exact ⟨_, exec_eq_run i (s.writeReg .A v), hframe,
      fun hkind => hwritten ((operationOf_writes_A i).mpr (List.mem_cons_of_mem _ hkind))⟩
  · obtain ⟨hframe, hwritten⟩ := run_writeReg_of_not_reads _ .B s v (mt (operationOf_reads_B i).mp hB)
    exact ⟨_, exec_eq_run i (s.writeReg .B v), hframe,
      fun hkind => hwritten ((operationOf_writes_B i).mpr (List.mem_cons_of_mem _ hkind))⟩
  · exact ⟨_, exec_eq_run i (s.writeReg .A v), portOut_run_writeReg _ .A s v (operationOf_ne_output_A i)⟩

/-- Settles O40: what each of the three instructions leaves in its destination is the register it reads, which reset has
made 0. -/
theorem registersReadZeroAfterReset : Obligations.RegistersReadZeroAfterReset := by
  unfold Obligations.RegistersReadZeroAfterReset
  intro s r
  exact ⟨State.readReg_resetCore s r,
    ⟨_, exec_eq_run .movAtoB (resetCore s), State.readReg_resetCore s .A⟩,
    ⟨_, exec_eq_run .movBtoA (resetCore s), State.readReg_resetCore s .B⟩,
    ⟨_, exec_eq_run .outFromB (resetCore s), State.readReg_resetCore s .B⟩⟩

end Sys2Proof.Machine
end

section
/-! The port's two latches and the instruction memory (spec/20_memory.md): what the execute stage and a step do over other
values of them. Each is a fact about the three shared operations first, then read off per instruction kind or per step. -/

namespace Sys2Proof.Machine

/-! ### What an operation does with the port's latches -/

/-- The value in the input latch takes part in the operation. -/
def Operation.ReadsPortIn : Operation → Prop
  | .add _ _ => False
  | .transfer _ src => src = .portIn
  | .branch _ _ => False

/-- The operation writes the output latch. -/
def Operation.WritesPortOut : Operation → Prop
  | .add _ _ => False
  | .transfer dst _ => dst = .portOut
  | .branch _ _ => False

/-- The readers of the input latch in spec/20_memory.md R43. -/
theorem operationOf_readsPortIn (i : Instr) : (operationOf i).ReadsPortIn ↔ i.kind ∈ [.inA, .inB] := by
  cases i <;> simp [operationOf, Operation.ReadsPortIn, Instr.kind]

/-- The writers of the output latch in spec/20_memory.md R43. -/
theorem operationOf_writesPortOut (i : Instr) : (operationOf i).WritesPortOut ↔ i.kind ∈ [.outFromB, .outImmediate] := by
  cases i <;> simp [operationOf, Operation.WritesPortOut, Instr.kind]

/-! ### The parameters of a run: memory, length and input latch -/

theorem run_keepsParameters (op : Operation) (s : State) : KeepsParameters s (op.run s) := by
  cases op with
  | add r imm => exact addImmediate_keepsParameters r imm s
  | transfer dst src => exact transfer_keepsParameters dst src s
  | branch k target => exact branch_keepsParameters k target s

/-- A source sees no parameter of the run but the input latch, and that only where it is the source. -/
theorem readSource_withParameters (s : State) (src : Source) (mem : Memory) (len : Fin (Config.capacity + 1))
    (portIn : Nibble) (h : src = .portIn → portIn = s.portIn) :
    readSource { s with mem := mem, len := len, portIn := portIn } src = readSource s src := by
  cases src with
  | imm v => rfl
  | reg r => cases r <;> rfl
  | portIn => exact h rfl

/-- Other parameters only travel along: no operation reads the memory or its length, and only one that reads the input latch
can tell a different value there. -/
theorem run_withParameters (op : Operation) (s : State) (mem : Memory) (len : Fin (Config.capacity + 1)) (portIn : Nibble)
    (h : op.ReadsPortIn → portIn = s.portIn) :
    op.run { s with mem := mem, len := len, portIn := portIn } =
      { op.run s with mem := mem, len := len, portIn := portIn } := by
  cases op with
  | add r imm => cases r <;> rfl
  | transfer dst src =>
    simp only [Operation.run, transfer, readSource_withParameters s src mem len portIn h]
    cases dst with
    | reg r => cases r <;> rfl
    | portOut => rfl
  | branch k target =>
    simp only [Operation.run, branch_eq]

theorem run_withPortIn (op : Operation) (s : State) (v : Nibble) (h : ¬op.ReadsPortIn) :
    op.run { s with portIn := v } = { op.run s with portIn := v } := by
  obtain ⟨-, hmem, hlen, -⟩ := run_keepsParameters op s
  calc op.run { s with portIn := v }
      = { op.run s with mem := s.mem, len := s.len, portIn := v } :=
        run_withParameters op s s.mem s.len v fun hr => absurd hr h
    _ = { op.run s with portIn := v } := by rw [← hmem, ← hlen]

theorem run_withMem (op : Operation) (s : State) (mem : Memory) :
    op.run { s with mem := mem } = { op.run s with mem := mem } := by
  obtain ⟨-, -, hlen, hportIn⟩ := run_keepsParameters op s
  calc op.run { s with mem := mem }
      = { op.run s with mem := mem, len := s.len, portIn := s.portIn } :=
        run_withParameters op s mem s.len s.portIn fun _ => rfl
    _ = { op.run s with mem := mem } := by rw [← hlen, ← hportIn]

/-! ### The output latch -/

theorem State.writePortOut_writePortOut (s : State) (v w : Nibble) :
    (s.writePortOut v).writePortOut w = s.writePortOut w := rfl

theorem readSource_writePortOut (s : State) (v : Nibble) (src : Source) :
    readSource (s.writePortOut v) src = readSource s src := by
  cases src with
  | imm w => rfl
  | reg r => exact State.readReg_writePortOut s v r
  | portIn => rfl

theorem portOut_run_of_not_writes (op : Operation) (s : State) (h : ¬op.WritesPortOut) : (op.run s).portOut = s.portOut := by
  cases op with
  | add r imm => simp [Operation.run, addImmediate]
  | transfer dst src =>
    cases dst with
    | reg r => simp [Operation.run, transfer, clearCarry, writeDest]
    | portOut => exact absurd rfl h
  | branch k target => simp [Operation.run, branch_eq]

/-- An output latch the operation does not write only travels along. -/
theorem run_writePortOut_of_not_writes (op : Operation) (s : State) (v : Nibble) (h : ¬op.WritesPortOut) :
    op.run (s.writePortOut v) = (op.run s).writePortOut v := by
  cases op with
  | add r imm => cases r <;> rfl
  | transfer dst src =>
    simp only [Operation.run, transfer, readSource_writePortOut]
    cases dst with
    | reg r => cases r <;> rfl
    | portOut => exact absurd rfl h
  | branch k target =>
    simp only [Operation.run, branch_eq]
    rfl

/-- An output latch the operation writes leaves no trace of what it held. -/
theorem run_writePortOut_of_writes (op : Operation) (s : State) (v : Nibble) (h : op.WritesPortOut) :
    op.run (s.writePortOut v) = op.run s := by
  cases op with
  | add r imm => exact h.elim
  | transfer dst src =>
    cases h
    simp only [Operation.run, transfer, writeDest, readSource_writePortOut, State.writePortOut_writePortOut]
  | branch k target => exact h.elim

/-! ### The step, from what its cycle does -/

theorem stepWith_of_halt (m : OpMap) (s : State) (hs : s.status = .halt) : stepWith m s = .next s := by
  simp only [stepWith, hs]

theorem stepWith_of_undecodable (m : OpMap) (s : State) (n : Nibble) (hs : s.status = .run)
    (hd : decodeWith m (fetch s) = .bad (.unknownOpcode n)) : stepWith m s = .next (takeUnknownOpcode n s) := by
  simp only [stepWith, hs, cycle, hd]

theorem stepWith_of_decoded (m : OpMap) (s : State) (i : Instr) (hs : s.status = .run)
    (hd : decodeWith m (fetch s) = .good i) :
    stepWith m s = .next (advanceOrHalt ((operationOf i).run s)) := by
  simp only [stepWith, hs, cycle, hd, exec_eq_run]

/-! ### The memory over a step -/

/-- A step writes none of the parameters of the run (spec/20_memory.md R32). -/
theorem stepWith_keeps_parameters (m : OpMap) (s t : State) (h : stepWith m s = .next t) :
    t.mem = s.mem ∧ t.len = s.len ∧ t.portIn = s.portIn := by
  obtain ⟨-, rfl⟩ | ⟨-, n, -, rfl⟩ | ⟨-, i, u, -, hexec, rfl⟩ := stepWith_next_cases m s t h
  · exact ⟨rfl, rfl, rfl⟩
  · exact ⟨rfl, rfl, rfl⟩
  · obtain ⟨-, hmem, hlen, hportIn⟩ := run_keepsParameters (operationOf i) s
    rw [advanceOrHalt_eq, eq_run_of_exec hexec]
    exact ⟨hmem, hlen, hportIn⟩

/-- The fetch depends on the memory only through the byte at `PC`. -/
theorem fetch_withMem (s : State) (mem : Memory) (h : mem.read s.pc.toNat = s.mem.read s.pc.toNat) :
    fetch { s with mem := mem } = fetch s := by
  simp only [fetch, h]

theorem advanceOrHalt_withMem (s : State) (mem : Memory) :
    advanceOrHalt { s with mem := mem } = { advanceOrHalt s with mem := mem } := by
  simp only [advanceOrHalt_eq]

/-- Over another memory from which the fetch gets the same byte, a step does the same. -/
theorem stepWith_withMem (m : OpMap) (s t : State) (mem : Memory) (hfetch : fetch { s with mem := mem } = fetch s)
    (h : stepWith m s = .next t) : stepWith m { s with mem := mem } = .next { t with mem := mem } := by
  obtain ⟨hs, rfl⟩ | ⟨hs, n, hd, rfl⟩ | ⟨hs, i, u, hd, hexec, rfl⟩ := stepWith_next_cases m s t h
  · exact stepWith_of_halt m _ hs
  · exact stepWith_of_undecodable m _ n hs (hfetch ▸ hd)
  · have hstep := stepWith_of_decoded m { s with mem := mem } i hs (hfetch ▸ hd)
    rw [hstep, run_withMem, advanceOrHalt_withMem, ← eq_run_of_exec hexec]

/-! ### The obligations -/

/-- Settles O9: which operation reads the input latch and which writes the output latch; one that writes the output latch
overwrites it, any other carries it along. -/
theorem portLatchesAreIndependent : Obligations.PortLatchesAreIndependent := by
  unfold Obligations.PortLatchesAreIndependent
  intro i s t hexec
  rw [eq_run_of_exec hexec, ← operationOf_readsPortIn, ← operationOf_writesPortOut]
  refine ⟨(run_keepsParameters _ s).portIn, fun hr v => ?_, portOut_run_of_not_writes _ s, fun v => ?_⟩
  · rw [exec_eq_run, run_withPortIn _ s v hr]
  · refine ⟨_, exec_eq_run i (s.writePortOut v), ?_⟩
    by_cases hw : (operationOf i).WritesPortOut
    · rw [run_writePortOut_of_writes _ s v hw]
      exact ⟨rfl, fun hn => absurd hw hn, fun _ => rfl⟩
    · rw [run_writePortOut_of_not_writes _ s v hw]
      exact ⟨rfl, fun _ => rfl, fun hw' => absurd hw' hw⟩

/-- Settles O31: the same byte at `PC` is the same fetch, and past the fetch no stage looks at the memory. -/
theorem stepSeesMemoryOnlyThroughTheFetch : Obligations.StepSeesMemoryOnlyThroughTheFetch := by
  unfold Obligations.StepSeesMemoryOnlyThroughTheFetch
  intro m s t hstep
  obtain ⟨hmem, -, -⟩ := stepWith_keeps_parameters m s t hstep
  exact ⟨hmem, fun mem hread => stepWith_withMem m s t mem (fetch_withMem s mem hread) hstep⟩

end Sys2Proof.Machine
end

section
/-! The codec (spec/30_encoding.md): what the decoder answers for every byte, and the encoder's byte as a number. -/

namespace Sys2Proof

/-! ### The kind and operand the decoder answers -/

/-- The three kinds whose low nibble the decoder discards (spec/30_encoding.md R52, class `NONE_ZERO`). -/
theorem Kind.operandClass_eq_noneZero_iff (k : Kind) :
    k.operandClass = .noneZero ↔ k = .inA ∨ k = .inB ∨ k = .outFromB := by
  cases k <;> simp [Kind.operandClass]

theorem decodePair_of_kindOf_some (m : OpMap) (b : Byte) (k : Kind) (h : kindOf m (highNibble b) = some k) :
    decodePair m b = .good (k, if k.operandClass = .noneZero then 0 else lowNibble b) := by
  simp only [decodePair, h]

theorem decodePair_of_kindOf_none (m : OpMap) (b : Byte) (h : kindOf m (highNibble b) = none) :
    decodePair m b = .bad (.unknownOpcode (highNibble b)) := by
  simp only [decodePair, h]

/-- The decoder's one failure: the opcode field holds a nibble no kind has, and that nibble is what it answers. -/
theorem decodePair_eq_unknownOpcode_iff (m : OpMap) (b : Byte) (n : Nibble) :
    decodePair m b = .bad (.unknownOpcode n) ↔ n = highNibble b ∧ ∀ k, m k ≠ n := by
  cases hk : kindOf m (highNibble b) with
  | none =>
    have hfree : ∀ k, m k ≠ highNibble b := (kindOf_eq_none m _).mp hk
    rw [decodePair_of_kindOf_none m b hk]
    constructor
    · intro h
      cases h
      exact ⟨rfl, hfree⟩
    · rintro ⟨rfl, -⟩
      rfl
  | some k =>
    have hassigned : m k = highNibble b := by simpa using List.find?_some hk
    rw [decodePair_of_kindOf_some m b k hk]
    constructor
    · nofun
    · rintro ⟨rfl, hfree⟩
      exact absurd hassigned (hfree k)

/-! ### The encoder's byte as a number -/

/-- The opcode field is worth 16 times its nibble (spec/30_encoding.md R51). -/
theorem toNat_joinNibbles (op low : Nibble) : (joinNibbles op low).toNat = op.toNat * 16 + low.toNat := by
  have hlow : low.toNat < 2 ^ 4 := low.isLt
  rw [joinNibbles, BitVec.toNat_append, ← Nat.shiftLeft_add_eq_or_of_lt hlow, Nat.shiftLeft_eq]

/-! ### The obligations -/

/-- Settles O12: in an admissible map the nibble's lookup finds its one kind, and the decoder answers what the lookup says. -/
theorem decoderFollowsTheOpcodeMap : Obligations.DecoderFollowsTheOpcodeMap := by
  unfold Obligations.DecoderFollowsTheOpcodeMap
  intro m hm b
  refine ⟨fun k hk => ?_, decodePair_eq_unknownOpcode_iff m b⟩
  have hfound : kindOf m (highNibble b) = some k := (kindOf_eq_some m hm _ k).mpr hk
  simp only [decodePair_of_kindOf_some m b k hfound, Kind.operandClass_eq_noneZero_iff]

/-- Settles O13: the low nibble is worth the immediate modulo 16, or 0 where the kind has none. -/
theorem encoderMasksTheImmediate : Obligations.EncoderMasksTheImmediate := by
  unfold Obligations.EncoderMasksTheImmediate
  intro m x
  rw [encodeAbstract, toNat_joinNibbles]
  by_cases himm : x.kind.operandClass = .imm
  · rw [if_pos himm, if_pos himm, BitVec.toNat_ofNat]
  · rw [if_neg himm, if_neg himm]
    rfl

end Sys2Proof
end

section
/-! The engine cycle (spec/40_engine_cycle.md): the status a cycle leaves, read off the length and the counter it leaves. -/

namespace Sys2Proof.Machine

/-! ### The halt check -/

/-- The halt check tests the counter the fourth stage has just written, so the state left shows which way it went
(spec/40_engine_cycle.md R77). -/
theorem advanceOrHalt_status (s : State) :
    (advanceOrHalt s).status =
      if (advanceOrHalt s).len.val ≤ (advanceOrHalt s).pc.toNat + 1 then .halt else s.status := by
  rw [advanceOrHalt_eq]

/-- The status after a running machine's cycle that does not abort, from the length and the counter after it. -/
theorem stepWith_status_of_not_abort (m : OpMap) (s t : State) (hs : s.status = .run) (h : stepWith m s = .next t)
    (hna : ∀ n, t.status ≠ .abort n) : t.status = if t.len.val ≤ t.pc.toNat + 1 then .halt else .run := by
  obtain ⟨hhalt, -⟩ | ⟨-, n, -, rfl⟩ | ⟨-, i, u, -, hexec, rfl⟩ := stepWith_next_cases m s t h
  · rw [hs] at hhalt
    cases hhalt
  · exact absurd rfl (hna n)
  · have hu : u.status = .run := by rw [eq_run_of_exec hexec, (run_keepsParameters _ s).status, hs]
    rw [advanceOrHalt_status, hu]

/-! ### The obligations -/

/-- Settles O23: on either side of the look-ahead the status is the one the halt check leaves there, and the run goes on
where the length is beyond the look-ahead. -/
theorem haltsExactlyWhenLookAheadReachesLength : Obligations.HaltsExactlyWhenLookAheadReachesLength := by
  unfold Obligations.HaltsExactlyWhenLookAheadReachesLength
  intro m s t hs hstep hna
  have hstatus := stepWith_status_of_not_abort m s t hs hstep hna
  by_cases hend : t.len.val ≤ t.pc.toNat + 1
  · have hnot : ¬t.pc.toNat + 2 ≤ t.len.val := by omega
    simp [hstatus, hend, hnot]
  · have hbefore : t.pc.toNat + 2 ≤ t.len.val := by omega
    simp [hstatus, hend, hbefore]

end Sys2Proof.Machine
end

section
/-! The arithmetic family (spec/41_arithmetic.md): the value and the flag an Add leaves, as numbers. -/

namespace Sys2Proof.Machine

/-- The masking of the sum, as a remainder (spec/41_arithmetic.md R93). -/
theorem maskedSum_eq_ofNat_mod (x imm : Nibble) : maskedSum x imm = BitVec.ofNat 4 ((x.toNat + imm.toNat) % 16) := by
  apply BitVec.eq_of_toNat_eq
  rw [maskedSum, unmaskedSum, BitVec.toNat_ofNat, BitVec.toNat_ofNat, Nat.mod_mod]

theorem carryAfterAdd_eq (old : Bool) (x imm : Nibble) :
    carryAfterAdd old x imm = if 15 < x.toNat + imm.toNat then true else old := rfl

/-! ### The obligations -/

/-- Settles O1: each of the two is the shared Add on its register, whose value and flag are the masked sum and the carry
as numbers. -/
theorem addsStoreTheMaskedSumAndOnlySetCarry : Obligations.AddsStoreTheMaskedSumAndOnlySetCarry := by
  unfold Obligations.AddsStoreTheMaskedSumAndOnlySetCarry
  intro imm s
  constructor
  · rw [exec_eq_run, operationOf, Operation.run, addImmediate_A, maskedSum_eq_ofNat_mod, carryAfterAdd_eq]
  · rw [exec_eq_run, operationOf, Operation.run, addImmediate_B, maskedSum_eq_ofNat_mod, carryAfterAdd_eq]

end Sys2Proof.Machine
end

section
/-! The move family (spec/42_move.md): which value each move transfers, and to which register. -/

namespace Sys2Proof.Machine

theorem readSource_imm (s : State) (v : Nibble) : readSource s (.imm v) = v := rfl

theorem readSource_reg (s : State) (r : Reg) : readSource s (.reg r) = s.readReg r := rfl

/-! ### The obligations -/

/-- Settles O2: each of the four is the shared transfer into its register, whose source is the immediate or the other
register. -/
theorem movesCopyExactlyAndClearCarry : Obligations.MovesCopyExactlyAndClearCarry := by
  unfold Obligations.MovesCopyExactlyAndClearCarry
  intro imm s
  refine ⟨?movA, ?movB, ?movAtoB, ?movBtoA⟩
  case movA => rw [exec_eq_run, operationOf, Operation.run, transfer_A, readSource_imm]
  case movB => rw [exec_eq_run, operationOf, Operation.run, transfer_B, readSource_imm]
  case movAtoB => rw [exec_eq_run, operationOf, Operation.run, transfer_B, readSource_reg, State.readReg_A]
  case movBtoA => rw [exec_eq_run, operationOf, Operation.run, transfer_A, readSource_reg, State.readReg_B]

end Sys2Proof.Machine
end

section
/-! The control-transfer family (spec/43_control_transfer.md): the branch resolver, and the counter each operation of the
execute stage leaves. -/

namespace Sys2Proof.Machine

/-! ### The branch resolver -/

theorem taken_eq_true_iff (k : Kind) (cf : Bool) :
    taken k cf = true ↔ k = .jump ∨ (k = .jumpIfNoCarry ∧ cf = false) := by
  cases k <;> simp [taken]

/-- Only the two jumps are ever taken. -/
theorem taken_of_not_jump (k : Kind) (cf : Bool) (h : ¬(k = .jump ∨ k = .jumpIfNoCarry)) : ¬taken k cf = true :=
  fun htaken => h (((taken_eq_true_iff k cf).mp htaken).imp_right And.left)

/-! ### The instructions that stand for a branch -/

theorem operationOf_of_jump (i : Instr) (h : i.kind = .jump ∨ i.kind = .jumpIfNoCarry) :
    operationOf i = .branch i.kind i.operand := by
  cases i with
  | jump imm => rfl
  | jumpIfNoCarry imm => rfl
  | _ => rcases h with h | h <;> cases h

theorem operationOf_ne_branch (i : Instr) (h : ¬(i.kind = .jump ∨ i.kind = .jumpIfNoCarry)) (k : Kind) (target : Nibble) :
    operationOf i ≠ .branch k target := by
  cases i with
  | jump imm => exact absurd (.inl rfl) h
  | jumpIfNoCarry imm => exact absurd (.inr rfl) h
  | _ => nofun

/-! ### The counter after the execute stage -/

theorem pc_run_branch (k : Kind) (target : Nibble) (s : State) :
    ((Operation.branch k target).run s).pc = if taken k s.cf then target else s.pc := by
  rw [Operation.run, branch_eq]

theorem pc_run_of_not_branch (op : Operation) (s : State) (h : ∀ k target, op ≠ .branch k target) :
    (op.run s).pc = s.pc := by
  cases op with
  | add r imm => simp [Operation.run, addImmediate]
  | transfer dst src => cases dst <;> simp [Operation.run, transfer, clearCarry, writeDest]
  | branch k target => exact absurd rfl (h k target)

/-- Every instruction leaves the counter that the resolver chooses on the flag it starts with (spec/43_control_transfer.md
R113). -/
theorem pc_run_operationOf (i : Instr) (s : State) :
    ((operationOf i).run s).pc = if taken i.kind s.cf then i.operand else s.pc := by
  by_cases hjump : i.kind = .jump ∨ i.kind = .jumpIfNoCarry
  · rw [operationOf_of_jump i hjump, pc_run_branch]
  · rw [pc_run_of_not_branch _ s (operationOf_ne_branch i hjump), if_neg (taken_of_not_jump i.kind s.cf hjump)]

/-! ### The obligations -/

/-- Settles O5: the resolver case by case over the kinds, and the counter that the operation of the instruction leaves. -/
theorem branchTakenExactlyWhenResolved : Obligations.BranchTakenExactlyWhenResolved := by
  unfold Obligations.BranchTakenExactlyWhenResolved
  refine ⟨taken_eq_true_iff, fun i s t hexec => ?_⟩
  rw [eq_run_of_exec hexec]
  exact pc_run_operationOf i s

end Sys2Proof.Machine
end

section
/-! The input and output family (spec/44_io.md): which value each port instruction transfers, and where to. -/

namespace Sys2Proof.Machine

theorem readSource_portIn (s : State) : readSource s .portIn = s.portIn := rfl

/-! ### The obligations -/

/-- Settles O3: each of the four is the shared transfer, from the input latch into a register, or from B or the immediate
into the output latch. -/
theorem portInstructionsCopyAndClearCarry : Obligations.PortInstructionsCopyAndClearCarry := by
  unfold Obligations.PortInstructionsCopyAndClearCarry
  intro imm s
  refine ⟨?inA, ?inB, ?outFromB, ?outImmediate⟩
  case inA => rw [exec_eq_run, operationOf, Operation.run, transfer_A, readSource_portIn]
  case inB => rw [exec_eq_run, operationOf, Operation.run, transfer_B, readSource_portIn]
  case outFromB => rw [exec_eq_run, operationOf, Operation.run, transfer_portOut, readSource_reg, State.readReg_B]
  case outImmediate => rw [exec_eq_run, operationOf, Operation.run, transfer_portOut, readSource_imm]

end Sys2Proof.Machine
end

section
/-! The exceptions (spec/60_exceptions.md): building the memory from the caller's bytes, and the one way it is refused. -/

namespace Sys2Proof.Machine

/-! ### Building the memory -/

theorem boot_of_programFits (bytes : List Byte) (portIn : Nibble) (h : programFits bytes) :
    boot bytes portIn =
      .next (State.afterReset (Memory.ofBytes bytes) ⟨bytes.length, Nat.lt_succ_of_le h⟩ portIn) :=
  dif_pos h

theorem boot_of_not_programFits (bytes : List Byte) (portIn : Nibble) (h : ¬programFits bytes) :
    boot bytes portIn = .refused .memoryOverflow :=
  dif_neg h

theorem boot_eq_refused_iff (bytes : List Byte) (portIn : Nibble) :
    boot bytes portIn = .refused .memoryOverflow ↔ ¬programFits bytes := by
  refine ⟨fun hrefused hfits => ?_, boot_of_not_programFits bytes portIn⟩
  rw [boot_of_programFits bytes portIn hfits] at hrefused
  cases hrefused

theorem exists_boot_eq_next_iff (bytes : List Byte) (portIn : Nibble) :
    (∃ s, boot bytes portIn = .next s) ↔ programFits bytes := by
  refine ⟨fun ⟨s, hnext⟩ => ?_, fun hfits => ⟨_, boot_of_programFits bytes portIn hfits⟩⟩
  by_contra hover
  rw [boot_of_not_programFits bytes portIn hover] at hnext
  cases hnext

/-! ### The obligations -/

/-- Settles O42: booting is refused exactly when the bytes do not fit, which is to be more than `Config.capacity`, and leaves a
state exactly when they fit. -/
theorem memoryOverflowExactlyBeyondSixteenBytes : Obligations.MemoryOverflowExactlyBeyondSixteenBytes := by
  unfold Obligations.MemoryOverflowExactlyBeyondSixteenBytes
  intro bytes portIn
  exact ⟨(boot_eq_refused_iff bytes portIn).trans Nat.not_le, (exists_boot_eq_next_iff bytes portIn).symm⟩

end Sys2Proof.Machine
end

section
/-! The hazards (spec/70_reset_and_hazards.md): the carry flag over a sequence of execute stages. -/

namespace Sys2Proof.Machine

/-! ### A sequence of execute stages -/

theorem execAll_nil (s : State) : execAll [] s = .next s := rfl

/-- No execute stage stops, so the sequence goes on from the state its first operation leaves. -/
theorem execAll_cons (i : Instr) (rest : List Instr) (s : State) :
    execAll (i :: rest) s = execAll rest ((operationOf i).run s) := by
  rw [execAll, exec_eq_run]

/-! ### The carry flag and the counter over Adds -/

theorem operationOf_of_kind_add (i : Instr) (h : i.kind = .addA ∨ i.kind = .addB) :
    ∃ r, operationOf i = .add r i.operand :=
  h.elim (fun hA => ⟨.A, operationOf_of_kind_addA i hA⟩) (fun hB => ⟨.B, operationOf_of_kind_addB i hB⟩)

/-- An Add keeps a set flag, whether or not its own sum overflows (spec/41_arithmetic.md R91). -/
theorem cf_run_add_of_set (r : Reg) (imm : Nibble) (s : State) (hcf : s.cf = true) :
    ((Operation.add r imm).run s).cf = true := by
  rw [cf_run_add, hcf, ite_self]

theorem pc_run_add (r : Reg) (imm : Nibble) (s : State) : ((Operation.add r imm).run s).pc = s.pc :=
  pc_run_of_not_branch _ s nofun

/-- From a set flag, Adds one after the other complete with the flag set and the counter where it was. -/
theorem execAll_adds_keeps_set_carry (adds : List Instr) (s : State)
    (hadds : ∀ i ∈ adds, i.kind = .addA ∨ i.kind = .addB) (hcf : s.cf = true) :
    ∃ t, execAll adds s = .next t ∧ t.cf = true ∧ t.pc = s.pc := by
  induction adds generalizing s with
  | nil => exact ⟨s, execAll_nil s, hcf, rfl⟩
  | cons i rest ih =>
    obtain ⟨hi, hrest⟩ := List.forall_mem_cons.mp hadds
    obtain ⟨r, hop⟩ := operationOf_of_kind_add i hi
    rw [execAll_cons, hop, ← pc_run_add r i.operand s]
    exact ih _ hrest (cf_run_add_of_set r i.operand s hcf)

/-! ### What follows the Adds -/

/-- On a set flag `JumpIfNoCarry` is not taken and only clears the flag (spec/43_control_transfer.md R112). -/
theorem exec_jumpIfNoCarry_of_set (imm : Nibble) (s : State) (hcf : s.cf = true) :
    exec (.jumpIfNoCarry imm) s = .next { s with cf := false } := by
  have hnot : ¬taken .jumpIfNoCarry s.cf = true := by simp [taken_eq_true_iff, hcf]
  rw [exec_eq_run, operationOf, Operation.run, branch_eq, if_neg hnot]

/-! ### The obligations -/

/-- Settles O10: by induction over the Adds the flag and the counter are kept; the jump then finds the flag set, and each
operation that is no Add ends with the clear. -/
theorem carrySurvivesAnyNumberOfAdds : Obligations.CarrySurvivesAnyNumberOfAdds := by
  unfold Obligations.CarrySurvivesAnyNumberOfAdds
  intro adds s hadds hcf
  obtain ⟨t, hrun, htcf, htpc⟩ := execAll_adds_keeps_set_carry adds s hadds hcf
  refine ⟨t, hrun, htcf, htpc, fun imm => exec_jumpIfNoCarry_of_set imm t htcf, fun i hA hB => ?_⟩
  exact ⟨_, exec_eq_run i t, cf_run_of_not_add _ t (operationOf_ne_add i hA hB)⟩

end Sys2Proof.Machine
end

section
/-! The codec (spec/30_encoding.md) in both directions: what the decoder answers for a byte built from an opcode nibble and
an operand, and what a decoded instruction says about the byte it came from. -/

namespace Sys2Proof

/-! ### From the instruction to the byte and back -/

/-- The canonical byte of every instruction is its kind's nibble above its operand (spec/30_encoding.md R58). -/
theorem encodeWith_eq_joinNibbles (m : OpMap) (i : Instr) : encodeWith m i = joinNibbles (m i.kind) i.operand := by
  by_cases himm : i.kind.operandClass = .imm
  · exact Laws.encodeWith_of_class_imm m i himm
  · exact Laws.encodeWith_of_class_ne_imm m i himm

theorem decodePair_joinNibbles (m : OpMap) (hm : m.wellFormed) (k : Kind) (low : Nibble) :
    decodePair m (joinNibbles (m k) low) = .good (k, if k.operandClass = .noneZero then 0 else low) := by
  have hfound : kindOf m (highNibble (joinNibbles (m k) low)) = some k := by
    rw [highNibble_joinNibbles, kindOf_eq_some m hm]
  rw [decodePair_of_kindOf_some m _ k hfound, lowNibble_joinNibbles]

theorem decodeWith_of_decodePair_good (m : OpMap) (b : Byte) (k : Kind) (opnd : Nibble)
    (h : decodePair m b = .good (k, opnd)) : decodeWith m b = .good (Instr.ofPair k opnd) := by
  simp only [decodeWith, h]

theorem decodeWith_of_decodePair_bad (m : OpMap) (b : Byte) (e : DecodeError) (h : decodePair m b = .bad e) :
    decodeWith m b = .bad e := by
  simp only [decodeWith, h]

/-- A valid immediate fits the low nibble. -/
theorem AbstractInstr.imm_lt_of_wellFormed (x : AbstractInstr) (hx : x.wellFormed) : x.imm < 16 := by
  by_cases himm : x.kind.operandClass = .imm
  · exact (if_pos himm).mp hx
  · have hzero : x.imm = 0 := (if_neg himm).mp hx
    omega

theorem AbstractInstr.imm_eq_zero_of_wellFormed (x : AbstractInstr) (hx : x.wellFormed)
    (himm : x.kind.operandClass ≠ .imm) : x.imm = 0 :=
  (if_neg himm).mp hx

theorem Instr.toAbstract_wellFormed (i : Instr) : i.toAbstract.wellFormed := by
  by_cases himm : i.kind.operandClass = .imm
  · exact (if_pos himm).mpr i.operand.isLt
  · refine (if_neg himm).mpr ?_
    rw [Instr.toAbstract, Instr.operand_of_class_ne_imm i himm]
    rfl

/-- The kind and the immediate of a valid abstract instruction come back from its byte. -/
theorem decodePair_encodeAbstract (m : OpMap) (hm : m.wellFormed) (x : AbstractInstr) (hx : x.wellFormed) :
    decodePair m (encodeAbstract m x) = .good (x.kind, BitVec.ofNat 4 x.imm) := by
  rw [encodeAbstract, decodePair_joinNibbles m hm]
  by_cases himm : x.kind.operandClass = .imm
  · simp [himm]
  · simp [himm, AbstractInstr.imm_eq_zero_of_wellFormed x hx himm]

theorem decodeWith_encodeWith (m : OpMap) (hm : m.wellFormed) (i : Instr) : decodeWith m (encodeWith m i) = .good i := by
  have hpair : decodePair m (encodeWith m i) = .good (i.kind, BitVec.ofNat 4 i.operand.toNat) :=
    decodePair_encodeAbstract m hm i.toAbstract i.toAbstract_wellFormed
  rw [decodeWith_of_decodePair_good m _ _ _ hpair, BitVec.ofNat_toNat, BitVec.setWidth_eq, Instr.ofPair_kind_operand]

/-! ### From the byte to the instruction and back -/

theorem joinNibbles_eq_iff (op low : Nibble) (b : Byte) :
    joinNibbles op low = b ↔ op = highNibble b ∧ low = lowNibble b := by
  constructor
  · rintro rfl
    exact ⟨(highNibble_joinNibbles op low).symm, (lowNibble_joinNibbles op low).symm⟩
  · rintro ⟨rfl, rfl⟩
    exact joinNibbles_high_low b

/-- A decoded instruction has the byte's low nibble as its operand, or 0 where its kind has no immediate. -/
theorem operand_of_decodeWith (m : OpMap) (b : Byte) (i : Instr) (h : decodeWith m b = .good i) :
    i.operand = if i.kind.operandClass = .imm then lowNibble b else 0 := by
  obtain ⟨-, hd⟩ | ⟨k, -, hd⟩ := decodeWith_cases m b
  · rw [hd] at h
    cases h
  · rw [hd] at h
    cases h
    rw [Instr.operand_ofPair, Instr.kind_ofPair]
    by_cases himm : k.operandClass = .imm <;> simp [himm]

/-- The decoder's one failure, at the level of instructions. -/
theorem decodeWith_eq_unknownOpcode_iff (m : OpMap) (b : Byte) (n : Nibble) :
    decodeWith m b = .bad (.unknownOpcode n) ↔ n = highNibble b ∧ ∀ k, m k ≠ n := by
  rw [← decodePair_eq_unknownOpcode_iff]
  refine ⟨fun h => ?_, decodeWith_of_decodePair_bad m b _⟩
  cases hpair : decodePair m b with
  | bad e =>
    rw [decodeWith_of_decodePair_bad m b e hpair] at h
    cases h
    rfl
  | good p =>
    rw [decodeWith_of_decodePair_good m b p.1 p.2 hpair] at h
    cases h

/-- A byte that decodes to `i` has an opcode nibble at which the lookup finds `i`'s kind. -/
theorem kindOf_of_decodeWith (m : OpMap) (b : Byte) (i : Instr) (h : decodeWith m b = .good i) :
    kindOf m (highNibble b) = some i.kind := by
  obtain ⟨-, hd⟩ | ⟨k, hk, hd⟩ := decodeWith_cases m b
  · rw [hd] at h
    cases h
  · rw [hd] at h
    cases h
    rw [hk, Instr.kind_ofPair]

/-- A kind without an immediate has one instruction, whatever the operand. -/
theorem Instr.ofPair_of_class_ne_imm (k : Kind) (x y : Nibble) (h : k.operandClass ≠ .imm) :
    Instr.ofPair k x = Instr.ofPair k y := by
  cases k with
  | movBtoA | inA | movAtoB | inB | outFromB => rfl
  | addA | movA | addB | movB | outImmediate | jumpIfNoCarry | jump => exact absurd rfl h

/-- Bytes with one opcode nibble decode alike where the kind has no immediate (spec/30_encoding.md R62). -/
theorem decodeWith_eq_of_highNibble_eq (m : OpMap) (b c : Byte) (i : Instr) (hhigh : highNibble c = highNibble b)
    (h : decodeWith m b = .good i) (himm : i.kind.operandClass ≠ .imm) : decodeWith m c = .good i := by
  have hkind : kindOf m (highNibble c) = some i.kind := hhigh ▸ kindOf_of_decodeWith m b i h
  rw [decodeWith_of_decodePair_good m c _ _ (decodePair_of_kindOf_some m c _ hkind),
    Instr.ofPair_of_class_ne_imm i.kind _ i.operand himm, Instr.ofPair_kind_operand]

/-- The zero byte, which the fetch supplies past the program (spec/30_encoding.md R55). -/
theorem decodePair_zero (m : OpMap) (hm : m.wellFormed) : ∃ k, m k = 0 ∧ decodePair m 0 = .good (k, 0) := by
  obtain ⟨k, hk⟩ := OpMap.zero_assigned m hm
  have hfound : kindOf m (highNibble 0) = some k := (kindOf_eq_some m hm _ k).mpr hk
  refine ⟨k, hk, ?_⟩
  rw [decodePair_of_kindOf_some m 0 k hfound]
  exact congrArg (fun opnd => Decoded.good (k, opnd)) (ite_self 0)

theorem exists_decodeWith_zero (m : OpMap) (hm : m.wellFormed) : ∃ i, decodeWith m 0 = .good i := by
  obtain ⟨k, -, hpair⟩ := decodePair_zero m hm
  exact ⟨_, decodeWith_of_decodePair_good m 0 k 0 hpair⟩

/-! ### The default map -/

/-- The nibbles the default map leaves without a kind (spec/30_encoding.md R57). -/
theorem defaultOpMap_unassigned_iff (n : Nibble) : (∀ k, defaultOpMap k ≠ n) ↔ n ∈ [8, 10, 12, 13] := by
  have hlist : ∀ n : Nibble, (∀ k ∈ Kind.all, defaultOpMap k ≠ n) ↔ n ∈ [8, 10, 12, 13] := by decide
  exact ⟨fun h => (hlist n).mp fun k _ => h k, fun h k => (hlist n).mpr h k (Kind.mem_all k)⟩

/-! ### The obligations -/

/-- Settles O11: an admissible map finds the kind again at its own nibble, and a valid immediate fits the low nibble. -/
theorem decodeOfEncodeIsIdentityForEveryMap : Obligations.DecodeOfEncodeIsIdentityForEveryMap := by
  unfold Obligations.DecodeOfEncodeIsIdentityForEveryMap
  intro m hm
  refine ⟨decodeWith_encodeWith m hm, fun x hx => ⟨decodePair_encodeAbstract m hm x hx, ?_⟩⟩
  rw [BitVec.toNat_ofNat]
  exact Nat.mod_eq_of_lt (x.imm_lt_of_wellFormed hx)

/-- Settles O14: the opcode nibble always comes back, and the low nibble comes back where it is the operand. -/
theorem reencodingRestoresExactlyCanonicalBytes : Obligations.ReencodingRestoresExactlyCanonicalBytes := by
  unfold Obligations.ReencodingRestoresExactlyCanonicalBytes
  intro m _ b i hd
  have hop : m i.kind = highNibble b := highNibble_of_decodeWith m b i hd
  rw [encodeWith_eq_joinNibbles, joinNibbles_eq_iff, operand_of_decodeWith m b i hd]
  by_cases himm : i.kind.operandClass = .imm
  · simp [hop, himm]
  · simp [hop, himm, eq_comm]

/-- Settles O16: some kind has nibble 0, and its operand is 0 in either operand class. -/
theorem syntheticZeroByteAlwaysDecodes : Obligations.SyntheticZeroByteAlwaysDecodes := by
  unfold Obligations.SyntheticZeroByteAlwaysDecodes
  exact ⟨decodePair_zero, by decide, by decide⟩

/-- Settles O17: the decoder refuses a byte for its opcode nibble alone, and the default map leaves four nibbles free. -/
theorem defaultMapRefusesExactlyFourNibbles : Obligations.DefaultMapRefusesExactlyFourNibbles := by
  unfold Obligations.DefaultMapRefusesExactlyFourNibbles
  intro b
  rw [decode, decodeWith_eq_unknownOpcode_iff, defaultOpMap_unassigned_iff]
  exact and_iff_right rfl

/-- Settles O18: ten written-out bytes, which the decoder evaluates. -/
theorem writtenBytesDecodeToTheirInstructions : Obligations.WrittenBytesDecodeToTheirInstructions := by
  unfold Obligations.WrittenBytesDecodeToTheirInstructions
  decide

end Sys2Proof
end

section
/-! One step (spec/40_engine_cycle.md, spec/43_control_transfer.md section 5, spec/60_exceptions.md): the state each way
through the cycle leaves, where a taken jump leads, and what a step over a program in other bytes does. -/

namespace Sys2Proof.Machine

/-! ### What a step leaves -/

theorem stepWith_of_abort (m : OpMap) (s : State) (n : Nibble) (hs : s.status = .abort n) :
    stepWith m s = .fault (.unknownOpcode n) := by
  simp only [stepWith, hs]

/-- The cycle of a decoded instruction, in terms of what its execute stage answers. -/
theorem stepWith_of_exec (m : OpMap) (s t : State) (i : Instr) (hs : s.status = .run)
    (hd : decodeWith m (fetch s) = .good i) (hexec : exec i s = .next t) :
    stepWith m s =
      .next { t with pc := t.pc + 1, status := if s.len.val ≤ (t.pc + 1).toNat + 1 then .halt else .run } := by
  have hstep := stepWith_of_decoded m s i hs hd
  rw [← eq_run_of_exec hexec, advanceOrHalt_eq] at hstep
  obtain ⟨hstatus, -, hlen, -⟩ := eq_run_of_exec hexec ▸ run_keepsParameters (operationOf i) s
  rw [hstep, hstatus, hlen, hs]

/-- A running machine always has a next state (spec/60_exceptions.md R133). -/
theorem exists_stepWith_of_run (m : OpMap) (s : State) (hs : s.status = .run) : ∃ t, stepWith m s = .next t := by
  cases hd : decodeWith m (fetch s) with
  | bad e => exact ⟨_, stepWith_of_undecodable m s e.1 hs hd⟩
  | good i => exact ⟨_, stepWith_of_decoded m s i hs hd⟩

/-- The counter after a cycle that executes is one past the counter its execute stage leaves (spec/40_engine_cycle.md R76). -/
theorem pc_of_stepWith_decoded (m : OpMap) (s t : State) (i : Instr) (hs : s.status = .run)
    (hd : decodeWith m (fetch s) = .good i) (hstep : stepWith m s = .next t) :
    t.pc = (if taken i.kind s.cf then i.operand else s.pc) + 1 := by
  rw [stepWith_of_decoded m s i hs hd] at hstep
  cases hstep
  rw [advanceOrHalt_eq, pc_run_operationOf]

/-- The increment of the counter as a number (spec/10_state.md R17). -/
theorem toNat_add_one (x : Nibble) : (x + 1).toNat = (x.toNat + 1) % 16 := BitVec.toNat_add x 1

/-! ### The two jumps -/

/-- A jump of either kind writes the counter and clears the flag. -/
theorem run_of_jump (i : Instr) (s : State) (h : i.kind = .jump ∨ i.kind = .jumpIfNoCarry) :
    (operationOf i).run s = { s with pc := if taken i.kind s.cf then i.operand else s.pc, cf := false } := by
  rw [operationOf_of_jump i h, Operation.run, branch_eq]

/-- A taken jump leaves the machine one past its immediate, with the flag cleared (spec/43_control_transfer.md R115). -/
theorem stepWith_of_taken (m : OpMap) (s : State) (i : Instr) (hs : s.status = .run)
    (hd : decodeWith m (fetch s) = .good i) (htaken : taken i.kind s.cf = true) :
    stepWith m s = .next { s with
      pc := i.operand + 1, cf := false,
      status := if s.len.val ≤ (i.operand + 1).toNat + 1 then .halt else .run } := by
  have hjump : i.kind = .jump ∨ i.kind = .jumpIfNoCarry := ((taken_eq_true_iff i.kind s.cf).mp htaken).imp_right And.left
  have hexec : exec i s = .next { s with pc := i.operand, cf := false } := by
    rw [exec_eq_run, run_of_jump i s hjump, if_pos htaken]
  exact stepWith_of_exec m s _ i hs hd hexec

/-- A jump that lands on itself before the last cell only clears the flag (spec/43_control_transfer.md R116). -/
theorem stepWith_of_jump_onto_itself (m : OpMap) (s : State) (hs : s.status = .run)
    (hd : decodeWith m (fetch s) = .good (.jump (s.pc - 1))) (hlen : s.pc.toNat + 2 ≤ s.len.val) :
    stepWith m s = .next { s with cf := false } := by
  have hback : (Instr.jump (s.pc - 1)).operand + 1 = s.pc := BitVec.sub_add_cancel s.pc 1
  have hbefore : ¬s.len.val ≤ s.pc.toNat + 1 := by omega
  rw [stepWith_of_taken m s _ hs hd rfl, hback, if_neg hbefore, ← hs]

/-! ### The output latch -/

/-- The two instructions that write the output latch, with what they put there (spec/10_state.md R21). -/
theorem portOut_run_operationOf (i : Instr) (s : State) (h : ((operationOf i).run s).portOut ≠ s.portOut) :
    (i = .outFromB ∧ ((operationOf i).run s).portOut = s.b) ∨ i = .outImmediate ((operationOf i).run s).portOut := by
  have hwrites : (operationOf i).WritesPortOut := by
    by_contra hnot
    exact h (portOut_run_of_not_writes _ s hnot)
  cases i with
  | outFromB => exact .inl ⟨rfl, rfl⟩
  | outImmediate imm => exact .inr rfl
  | _ => simp [operationOf_writesPortOut, Instr.kind] at hwrites

/-! ### A program in other bytes -/

/-- A step over another memory, under another map, does the same where the fetched byte decodes to the same: past the decoder
no stage looks at the memory or at the map. -/
theorem stepWith_of_decode_eq (m n : OpMap) (s t : State) (mem : Memory)
    (hdecode : s.status = .run → decodeWith n (fetch { s with mem := mem }) = decodeWith m (fetch s))
    (h : stepWith m s = .next t) : stepWith n { s with mem := mem } = .next { t with mem := mem } := by
  obtain ⟨hs, rfl⟩ | ⟨hs, x, hd, rfl⟩ | ⟨hs, i, u, hd, hexec, rfl⟩ := stepWith_next_cases m s t h
  · exact stepWith_of_halt n _ hs
  · exact stepWith_of_undecodable n _ x hs ((hdecode hs).trans hd)
  · have hstep := stepWith_of_decoded n { s with mem := mem } i hs ((hdecode hs).trans hd)
    rw [hstep, run_withMem, advanceOrHalt_withMem, ← eq_run_of_exec hexec]

/-! ### The obligations -/

/-- Settles O8: no operation writes a parameter of the run, and none reads the memory or its length. -/
theorem executeNeverFailsNorTouchesMemory : Obligations.ExecuteNeverFailsNorTouchesMemory := by
  unfold Obligations.ExecuteNeverFailsNorTouchesMemory
  intro i s
  obtain ⟨hstatus, hmem, hlen, hportIn⟩ := run_keepsParameters (operationOf i) s
  refine ⟨_, exec_eq_run i s, hstatus, hmem, fun addr => congrArg (Memory.read · addr) hmem, hlen, hportIn,
    fun mem len => ?_⟩
  have hrun := run_withParameters (operationOf i) s mem len s.portIn fun _ => rfl
  rw [exec_eq_run, hrun, ← hportIn]

/-- Settles O15: both bytes decode to the one instruction of their kind. -/
theorem lowNibbleOfImmediatelessKindsIsIgnored : Obligations.LowNibbleOfImmediatelessKindsIsIgnored := by
  unfold Obligations.LowNibbleOfImmediatelessKindsIsIgnored
  intro m s t mem i hhigh hd himm hstep
  refine stepWith_of_decode_eq m m s t mem (fun _ => ?_) hstep
  rw [hd, decodeWith_eq_of_highNibble_eq m _ _ i hhigh hd himm]

/-- Settles O24 from the halt rule: no length reaches beyond the look-ahead from 15. -/
theorem counterFifteenAlwaysHalts : Obligations.CounterFifteenAlwaysHalts := by
  unfold Obligations.CounterFifteenAlwaysHalts
  intro m s t hs hstep hna
  obtain ⟨hhalt, -⟩ := haltsExactlyWhenLookAheadReachesLength m s t hs hstep hna
  refine ⟨fun hpc => hhalt.mpr ?_, fun hpc => ?_⟩
  · rw [hpc]
    exact t.len_le
  · rw [hhalt, hpc]
    rfl

/-- Settles O25: the counter the resolver chose, plus 1. -/
theorem everyInstructionAdvancesPcByOne : Obligations.EveryInstructionAdvancesPcByOne := by
  unfold Obligations.EveryInstructionAdvancesPcByOne
  intro m s t i hs hd hstep
  rw [pc_of_stepWith_decoded m s t i hs hd hstep, toNat_add_one]

/-- Settles O26: the landing address is the immediate plus 1, which wraps at 15 only, and the halt check is made there. -/
theorem takenJumpLandsPastItsImmediateOrHalts : Obligations.TakenJumpLandsPastItsImmediateOrHalts := by
  unfold Obligations.TakenJumpLandsPastItsImmediateOrHalts
  intro m s i hs hd htaken
  refine ⟨_, stepWith_of_taken m s i hs hd htaken, rfl, fun hle => ?_, fun hmax => ?_⟩
  · have hpc : (i.operand + 1).toNat = i.operand.toNat + 1 := by
      rw [toNat_add_one]
      omega
    refine ⟨hpc, ?_⟩
    simp only [hpc, ← ite_not (p := s.len.val ≤ _), not_le]
    rfl
  · have hpc : i.operand + 1 = 0 := by
      rw [hmax]
      rfl
    refine ⟨hpc, ?_⟩
    simp only [hpc, ← ite_not (p := s.len.val ≤ _), not_le]
    rfl

/-- Settles O27: each step only clears the flag, and the state with the flag cleared is one of the same kind. -/
theorem jumpOntoItselfRunsForEver : Obligations.JumpOntoItselfRunsForEver := by
  unfold Obligations.JumpOntoItselfRunsForEver
  intro m s hs hd hlen k
  induction k generalizing s with
  | zero => exact (runWith_succ m 0 s _).mpr ⟨_, stepWith_of_jump_onto_itself m s hs hd hlen, runWith_zero m _⟩
  | succ k ih =>
    exact (runWith_succ m (k + 1) s _).mpr
      ⟨_, stepWith_of_jump_onto_itself m s hs hd hlen, ih { s with cf := false } hs hd hlen⟩

/-- Settles O28: the first jump clears the flag on both ways, and on a cleared flag the second is taken. -/
theorem secondJumpIfNoCarryIsAlwaysTaken : Obligations.SecondJumpIfNoCarryIsAlwaysTaken := by
  unfold Obligations.SecondJumpIfNoCarryIsAlwaysTaken
  intro m s t x hs hd hstep
  have hcf : t.cf = false := by
    rw [stepWith_of_decoded m s _ hs hd, run_of_jump _ s (.inr rfl), advanceOrHalt_eq] at hstep
    cases hstep
    rfl
  refine ⟨hcf, fun y ht hdy => ⟨_, stepWith_of_taken m t _ ht hdy ?_, rfl, rfl⟩⟩
  exact (taken_eq_true_iff _ _).mpr (.inr ⟨rfl, hcf⟩)

/-- Settles O29, by the three values of the status. -/
theorem stepIsTotalAndNeverRefuses : Obligations.StepIsTotalAndNeverRefuses := by
  unfold Obligations.StepIsTotalAndNeverRefuses
  intro m s
  cases hs : s.status with
  | run => exact .inl ⟨exists_stepWith_of_run m s hs, nofun⟩
  | halt => exact .inl ⟨⟨s, stepWith_of_halt m s hs⟩, nofun⟩
  | abort n => exact .inr ⟨n, rfl, stepWith_of_abort m s n hs⟩

/-- Settles O30: of the three ways through a step only the one that executes can change the latch, and there the operation
must write it. -/
theorem outputLatchChangesOnlyByOutInstructions : Obligations.OutputLatchChangesOnlyByOutInstructions := by
  unfold Obligations.OutputLatchChangesOnlyByOutInstructions
  intro m s t hstep hne
  obtain ⟨-, rfl⟩ | ⟨-, n, -, rfl⟩ | ⟨-, i, u, hd, hexec, rfl⟩ := stepWith_next_cases m s t hstep
  · exact absurd rfl hne
  · exact absurd rfl hne
  · rw [advanceOrHalt_eq, eq_run_of_exec hexec] at hne ⊢
    exact ⟨i, hd, portOut_run_operationOf i s hne⟩

/-- Settles O4: each of the two is the shared branch, whose counter the resolver chooses. -/
theorem jumpsWritePcAndClearCarry : Obligations.JumpsWritePcAndClearCarry := by
  unfold Obligations.JumpsWritePcAndClearCarry
  intro imm s
  constructor
  · rw [exec_eq_run, run_of_jump _ s (.inl rfl)]
    rfl
  · rw [exec_eq_run, run_of_jump _ s (.inr rfl)]
    simp only [Instr.kind, Instr.operand, taken_eq_true_iff, reduceCtorEq, true_and, false_or]

/-- Settles O20: the machine's own step is the one under the default map by definition, and the cycle of a decoded instruction
is what its execute stage answers, advanced and checked. -/
theorem stepRunsTheDecodedInstruction : Obligations.StepRunsTheDecodedInstruction := by
  unfold Obligations.StepRunsTheDecodedInstruction
  exact ⟨fun _ => rfl, stepWith_of_exec⟩

/-- Settles O21: the decoder reports the opcode nibble, and the status it leaves is what the next step answers. -/
theorem undecodableByteAbortsAndChangesNothingElse : Obligations.UndecodableByteAbortsAndChangesNothingElse := by
  unfold Obligations.UndecodableByteAbortsAndChangesNothingElse
  intro m s hs hfree
  have hd := (decodeWith_eq_unknownOpcode_iff m (fetch s) _).mpr ⟨rfl, hfree⟩
  exact ⟨stepWith_of_undecodable m s _ hs hd, stepWith_of_abort m _ _ rfl⟩

/-- Settles O22: a halted machine steps to itself, so by induction it stays; an aborted one stops at the first step. -/
theorem endedMachinePerformsNoCycle : Obligations.EndedMachinePerformsNoCycle := by
  unfold Obligations.EndedMachinePerformsNoCycle
  intro m s
  refine ⟨fun hs k => ?_, fun n hs k => ?_⟩
  · induction k with
    | zero => exact runWith_zero m s
    | succ k ih => exact (runWith_succ m k s s).mpr ⟨s, stepWith_of_halt m s hs, ih⟩
  · simp only [runWith, stepWith_of_abort m s n hs]

end Sys2Proof.Machine
end

section
/-! What every step keeps, and so what holds along every run (spec/40_engine_cycle.md section 6, R81, R82): the parameters of
the run, and that nothing is fetched past the cell before the last. -/

namespace Sys2Proof.Machine

/-! ### Runs -/

/-- What every step keeps holds along every run. -/
theorem runWith_induction (m : OpMap) (P : State → Prop) (hkeep : ∀ s t, P s → stepWith m s = .next t → P t) (k : Nat)
    (s t : State) (hs : P s) (hrun : runWith m k s = .next t) : P t := by
  induction k generalizing s with
  | zero =>
    cases hrun
    exact hs
  | succ k ih =>
    obtain ⟨u, hstep, hrest⟩ := (runWith_succ m k s t).mp hrun
    exact ih u (hkeep s u hs hstep) hrest

theorem runWith_keeps_parameters (m : OpMap) (k : Nat) (s t : State) (hrun : runWith m k s = .next t) :
    t.mem = s.mem ∧ t.len = s.len ∧ t.portIn = s.portIn := by
  refine runWith_induction m (fun u => u.mem = s.mem ∧ u.len = s.len ∧ u.portIn = s.portIn) ?_ k s t ⟨rfl, rfl, rfl⟩ hrun
  rintro u v ⟨hmem, hlen, hportIn⟩ hstep
  obtain ⟨hmem', hlen', hportIn'⟩ := stepWith_keeps_parameters m u v hstep
  exact ⟨hmem'.trans hmem, hlen'.trans hlen, hportIn'.trans hportIn⟩

/-- A run whose fetched bytes all decode never stops and never aborts. -/
theorem exists_runWith_of_decodable (m : OpMap) (s : State) (hs : ∀ x, s.status ≠ .abort x)
    (hdecodes : ∀ j t, runWith m j s = .next t → t.status = .run → ∃ i, decodeWith m (fetch t) = .good i) (k : Nat) :
    ∃ t, runWith m k s = .next t ∧ ∀ x, t.status ≠ .abort x := by
  induction k with
  | zero => exact ⟨s, runWith_zero m s, hs⟩
  | succ k ih =>
    obtain ⟨t, hrun, ht⟩ := ih
    cases hstatus : t.status with
    | run =>
      obtain ⟨i, hd⟩ := hdecodes k t hrun hstatus
      obtain ⟨u, hstep⟩ := exists_stepWith_of_run m t hstatus
      refine ⟨u, (runWith_succ_last m k s u).mpr ⟨t, hrun, hstep⟩, fun x hx => ?_⟩
      rw [stepWith_of_exec m t _ i hstatus hd (exec_eq_run i t)] at hstep
      cases hstep
      dsimp only at hx
      split at hx <;> cases hx
    | halt =>
      exact ⟨t, (runWith_succ_last m k s t).mpr ⟨t, hrun, stepWith_of_halt m t hstatus⟩, ht⟩
    | abort x => exact absurd hstatus (ht x)

/-- Two programs whose fetched bytes decode alike along the run of the one, each under its map, run alike. -/
theorem runWith_of_decode_eq (m n : OpMap) (s : State) (mem : Memory)
    (hdecode : ∀ j t, runWith m j s = .next t → t.status = .run →
      decodeWith n (fetch { t with mem := mem }) = decodeWith m (fetch t))
    (k : Nat) (t : State) (hrun : runWith m k s = .next t) :
    runWith n k { s with mem := mem } = .next { t with mem := mem } := by
  induction k generalizing t with
  | zero =>
    cases hrun
    exact runWith_zero n _
  | succ k ih =>
    obtain ⟨u, hbefore, hstep⟩ := (runWith_succ_last m k s t).mp hrun
    exact (runWith_succ_last n k _ _).mpr
      ⟨_, ih u hbefore, stepWith_of_decode_eq m n u t mem (hdecode k u hbefore) hstep⟩

/-! ### Where the next fetch is -/

/-- The counter is where the machine can run on: at the start, or before the last cell (spec/40_engine_cycle.md R81). -/
def BeforeLast (s : State) : Prop := s.pc = 0 ∨ s.pc.toNat + 2 ≤ s.len.val

/-- A machine that runs on, or that has just aborted, stands where a running machine may stand. -/
theorem stepWith_beforeLast (m : OpMap) (s t : State) (hs : s.status = .run → BeforeLast s) (hstep : stepWith m s = .next t)
    (ht : t.status ≠ .halt) : BeforeLast t := by
  obtain ⟨hhalt, rfl⟩ | ⟨hrun, n, -, rfl⟩ | ⟨-, i, u, -, -, rfl⟩ := stepWith_next_cases m s t hstep
  · exact absurd hhalt ht
  · exact hs hrun
  · refine .inr ?_
    by_contra hend
    exact ht ((advanceOrHalt_status u).trans (if_pos (by omega)))

theorem IsLaunch.beforeLast {s : State} (h : IsLaunch s) : BeforeLast s := .inl h.pc

/-- Along a run from a launch state the counter stays before the last cell until the machine halts. -/
theorem runWith_beforeLast (m : OpMap) (k : Nat) (s t : State) (hlaunch : IsLaunch s) (hrun : runWith m k s = .next t)
    (ht : t.status ≠ .halt) : BeforeLast t :=
  runWith_induction m (fun u => u.status ≠ .halt → BeforeLast u)
    (fun u v hu hstep hv => stepWith_beforeLast m u v (fun hur => hu (by simp [hur])) hstep hv)
    k s t (fun _ => hlaunch.beforeLast) hrun ht

theorem BeforeLast.pc_ne_fifteen {s : State} (h : BeforeLast s) : s.pc ≠ 15 := by
  intro hpc
  have hlen := s.len_le
  obtain hzero | hbefore := h
  · rw [hpc] at hzero
    cases hzero
  · have hval : s.pc.toNat = 15 := congrArg BitVec.toNat hpc
    omega

theorem BeforeLast.pc_succ_lt {s : State} (h : BeforeLast s) (hlen : 2 ≤ s.len.val) : s.pc.toNat + 1 < s.len.val := by
  obtain hzero | hbefore := h
  · have hval : s.pc.toNat = 0 := congrArg BitVec.toNat hzero
    omega
  · omega

theorem BeforeLast.pc_lt {s : State} (h : BeforeLast s) (hlen : 1 ≤ s.len.val) : s.pc.toNat < s.len.val := by
  obtain hzero | hbefore := h
  · have hval : s.pc.toNat = 0 := congrArg BitVec.toNat hzero
    omega
  · omega

/-! ### The fetch along a run -/

theorem fetch_of_lt (s : State) (h : s.pc.toNat < s.len.val) : fetch s = s.mem.read s.pc.toNat := if_pos h

theorem fetch_of_len_le (s : State) (h : s.len.val ≤ s.pc.toNat) : fetch s = 0 := if_neg (Nat.not_lt.mpr h)

/-- In a run over a memory with a cell a running machine stands at a cell (spec/40_engine_cycle.md R81 (d)). -/
theorem runWith_pc_lt (m : OpMap) (k : Nat) (s t : State) (hlaunch : IsLaunch s) (hlen : 1 ≤ s.len.val)
    (hrun : runWith m k s = .next t) (ht : t.status = .run) : t.pc.toNat < t.len.val := by
  obtain ⟨-, hlen', -⟩ := runWith_keeps_parameters m k s t hrun
  exact (runWith_beforeLast m k s t hlaunch hrun (by simp [ht])).pc_lt (hlen'.symm ▸ hlen)

/-! ### A memory of at most one cell -/

/-- Over at most one cell the halt condition holds wherever a cycle leaves the counter (spec/40_engine_cycle.md R80). -/
theorem stepWith_of_len_le_one (m : OpMap) (s t : State) (i : Instr) (hs : s.status = .run) (hlen : s.len.val ≤ 1)
    (hd : decodeWith m (fetch s) = .good i) (hexec : exec i s = .next t) :
    stepWith m s = .next { t with pc := t.pc + 1, status := .halt } := by
  rw [stepWith_of_exec m s t i hs hd hexec, if_pos (by omega)]

/-- The synthetic instruction of the default map changes nothing: adding 0 never overflows. -/
theorem exec_addA_zero (s : State) : exec (.addA 0) s = .next s := by
  have hsum : s.a + 0 = s.a := BitVec.add_zero s.a
  have hfits : ¬15 < s.a.toNat + (0 : Nibble).toNat := Nat.not_lt.mpr (Nat.le_of_lt_succ s.a.isLt)
  rw [exec_eq_run, operationOf, Operation.run, addImmediate_A, maskedSum_eq_add, hsum, carryAfterAdd_eq,
    if_neg hfits]

/-! ### Straight-line code -/

/-- An instruction that is no jump completes, and the halt check is made at the next address. -/
theorem exists_stepWith_of_not_jump (m : OpMap) (s : State) (i : Instr) (hs : s.status = .run)
    (hd : decodeWith m (fetch s) = .good i) (hnot : ¬(i.kind = .jump ∨ i.kind = .jumpIfNoCarry)) :
    ∃ t, stepWith m s = .next t ∧ t.pc = s.pc + 1 ∧
      t.status = if s.len.val ≤ (s.pc + 1).toNat + 1 then .halt else .run := by
  have hpc : ((operationOf i).run s).pc = s.pc := pc_run_of_not_branch _ s (operationOf_ne_branch i hnot)
  refine ⟨_, stepWith_of_exec m s _ i hs hd (exec_eq_run i s), ?_, ?_⟩ <;> rw [hpc]

/-! ### The invariant -/

/-- An aborting step leaves the machine at the byte whose nibble no kind has (spec/60_exceptions.md R132). -/
theorem stepWith_abort_at_byte (m : OpMap) (s t : State) (n : Nibble) (hstep : stepWith m s = .next t)
    (ht : t.status = .abort n) : highNibble (fetch t) = n ∧ ∀ k, m k ≠ n := by
  obtain ⟨hhalt, rfl⟩ | ⟨-, x, hd, rfl⟩ | ⟨hs, i, u, hd, hexec, rfl⟩ := stepWith_next_cases m s t hstep
  · rw [hhalt] at ht
    cases ht
  · cases ht
    obtain ⟨hhigh, hfree⟩ := (decodeWith_eq_unknownOpcode_iff m (fetch s) n).mp hd
    rw [fetch_congr s (takeUnknownOpcode n s) rfl rfl rfl]
    exact ⟨hhigh.symm, hfree⟩
  · rw [advanceOrHalt_status, eq_run_of_exec hexec, (run_keepsParameters _ s).status, hs] at ht
    split at ht <;> cases ht

/-- A step that ends in `HALT` ends where the halt condition holds, if the machine halted there already when it started
halted. -/
theorem stepWith_halt_at_end (m : OpMap) (s t : State) (hs : s.status = .halt → s.len.val ≤ s.pc.toNat + 1)
    (hstep : stepWith m s = .next t) (ht : t.status = .halt) : t.len.val ≤ t.pc.toNat + 1 := by
  obtain ⟨hhalt, rfl⟩ | ⟨-, x, -, rfl⟩ | ⟨hrun, -⟩ := stepWith_next_cases m s t hstep
  · exact hs hhalt
  · cases ht
  · exact (haltsExactlyWhenLookAheadReachesLength m s t hrun hstep (by simp [ht])).1.mp ht

theorem stepWith_keeps_memoryOk (m : OpMap) (s t : State) (hs : s.memoryOk) (hstep : stepWith m s = .next t) :
    t.memoryOk := by
  obtain ⟨hmem, hlen, -⟩ := stepWith_keeps_parameters m s t hstep
  rw [State.memoryOk, hmem, hlen]
  exact hs

/-- The reset state over a canonical memory within its length has the invariant. -/
theorem inv_afterReset (m : OpMap) (mem : Memory) (len : Fin (Config.capacity + 1)) (portIn : Nibble)
    (hmem : (State.afterReset mem len portIn).memoryOk) : Inv m (State.afterReset mem len portIn) where
  memoryOk := hmem
  runBeforeLast _ := .inl rfl
  haltAtEnd := nofun
  abortAtByte := nofun

/-! ### The obligations -/

/-- Settles O38: each field of the invariant is kept for its own reason. -/
theorem stepKeepsTheInvariant : Obligations.StepKeepsTheInvariant := by
  unfold Obligations.StepKeepsTheInvariant
  intro m s t hinv hstep
  exact {
    memoryOk := stepWith_keeps_memoryOk m s t hinv.memoryOk hstep
    runBeforeLast := fun ht => stepWith_beforeLast m s t hinv.runBeforeLast hstep (by simp [ht])
    haltAtEnd := stepWith_halt_at_end m s t hinv.haltAtEnd hstep
    abortAtByte := fun n => stepWith_abort_at_byte m s t n hstep }

/-- Settles O19: the two branches of the fetch, and where a running machine stands. -/
theorem fetchReadsTheCellOrZero : Obligations.FetchReadsTheCellOrZero := by
  unfold Obligations.FetchReadsTheCellOrZero
  exact ⟨fun s => ⟨fetch_of_lt s, fetch_of_len_le s⟩, exists_decodeWith_zero, fun m s t k => runWith_pc_lt m k s t⟩

/-- Settles O32: no step writes what the fetch reads but the counter. -/
theorem everyFetchOfAnAddressInARunIsTheSame : Obligations.EveryFetchOfAnAddressInARunIsTheSame := by
  unfold Obligations.EveryFetchOfAnAddressInARunIsTheSame
  intro m s t u j k ht hu
  obtain ⟨hmem, hlen, hportIn⟩ := runWith_keeps_parameters m j s t ht
  obtain ⟨hmem', hlen', -⟩ := runWith_keeps_parameters m k s u hu
  refine ⟨fun addr => by rw [hmem], hmem, hlen, hportIn, fun hpc => ?_⟩
  exact fetch_congr u t hpc (hmem.trans hmem'.symm) (hlen.trans hlen'.symm)

/-- Settles O33: until it halts the machine stands before the last cell. -/
theorem lastCellIsNeverFetched : Obligations.LastCellIsNeverFetched := by
  unfold Obligations.LastCellIsNeverFetched
  intro m s t k hlaunch hrun ht
  have hbefore := runWith_beforeLast m k s t hlaunch hrun ht
  obtain ⟨-, hlen, -⟩ := runWith_keeps_parameters m k s t hrun
  exact ⟨hbefore.pc_ne_fifteen, fun htwo => hlen ▸ hbefore.pc_succ_lt (hlen.symm ▸ htwo)⟩

/-- Settles O34: the last byte is never fetched, so every fetch of the one run finds the same byte in the other. -/
theorem lastByteNeverInfluencesARun : Obligations.LastByteNeverInfluencesARun := by
  unfold Obligations.LastByteNeverInfluencesARun
  intro m s mem k t hlaunch htwo hsame hrun
  refine ⟨_, runWith_of_decode_eq m m s mem (fun j u hu hrunning => ?_) k t hrun, rfl⟩
  obtain ⟨hmem, hlen, -⟩ := runWith_keeps_parameters m j s u hu
  obtain ⟨-, hbefore⟩ := lastCellIsNeverFetched m s u j hlaunch hu (by simp [hrunning])
  rw [fetch_withMem u mem ((hsame _ (hbefore htwo)).trans (by rw [hmem]))]

/-- Settles O35, by induction on the number of steps: before the last cell the machine runs on to the next one. -/
theorem straightLineRunHaltsAtLastCell : Obligations.StraightLineRunHaltsAtLastCell := by
  unfold Obligations.StraightLineRunHaltsAtLastCell
  intro m s hlaunch htwo hline k hk
  induction k with
  | zero =>
    refine ⟨s, runWith_zero m s, congrArg BitVec.toNat hlaunch.pc, ?_⟩
    rw [hlaunch.status, if_neg (by omega)]
  | succ k ih =>
    obtain ⟨t, hrun, hpc, hstatus⟩ := ih (by omega)
    rw [if_neg (by omega)] at hstatus
    obtain ⟨hmem, hlen, -⟩ := runWith_keeps_parameters m k s t hrun
    obtain ⟨i, hd, hnotJump, hnotJnc⟩ := hline k hk
    have hfetch : fetch t = s.mem.read k := by
      rw [fetch_of_lt t (by rw [hpc, hlen]; omega), hpc, hmem]
    rw [← hfetch] at hd
    have hpcNext : (t.pc + 1).toNat = k + 1 := by
      have hcap := s.len_le
      rw [toNat_add_one, hpc]
      omega
    obtain ⟨u, hstep, hpcu, hstatusu⟩ :=
      exists_stepWith_of_not_jump m t i hstatus hd (not_or.mpr ⟨hnotJump, hnotJnc⟩)
    refine ⟨u, (runWith_succ_last m k s u).mpr ⟨t, hrun, hstep⟩, hpcu ▸ hpcNext, ?_⟩
    rw [hstatusu, hpcNext, hlen]
    refine if_congr ?_ rfl rfl
    omega

/-- Settles O36: each cell decodes to the same instruction under its map, and no fetch leaves the cells. -/
theorem runsAgreeUnderAnyTwoOpcodeMaps : Obligations.RunsAgreeUnderAnyTwoOpcodeMaps := by
  unfold Obligations.RunsAgreeUnderAnyTwoOpcodeMaps
  intro m n s mem _ _ hlaunch hone hcells k
  have hfetched : ∀ j t, runWith m j s = .next t → t.status = .run →
      ∃ i, decodeWith m (fetch t) = .good i ∧ decodeWith n (fetch { t with mem := mem }) = .good i := by
    intro j t hrun ht
    have hlt := runWith_pc_lt m j s t hlaunch hone hrun ht
    obtain ⟨hmem, hlen, -⟩ := runWith_keeps_parameters m j s t hrun
    rw [fetch_of_lt t hlt, fetch_of_lt { t with mem := mem } hlt, hmem]
    exact hcells _ (hlen ▸ hlt)
  have hdecodes : ∀ j t, runWith m j s = .next t → t.status = .run → ∃ i, decodeWith m (fetch t) = .good i :=
    fun j t hrun ht => (hfetched j t hrun ht).imp fun _ => And.left
  obtain ⟨t, hrun, -⟩ := exists_runWith_of_decodable m s (by simp [hlaunch.status]) hdecodes k
  refine ⟨t, hrun, runWith_of_decode_eq m n s mem (fun j u hu hrunning => ?_) k t hrun⟩
  obtain ⟨i, hm, hn⟩ := hfetched j u hu hrunning
  rw [hm, hn]

/-- Settles O37: the first cycle that executes halts, and only a byte that is there can fail to decode. -/
theorem memoryOfAtMostOneCellRunsOneCycle : Obligations.MemoryOfAtMostOneCellRunsOneCycle := by
  unfold Obligations.MemoryOfAtMostOneCellRunsOneCycle
  intro m s hm hlaunch hone
  have hempty : s.len.val = 0 → fetch s = 0 := fun hzero => fetch_of_len_le s (by omega)
  refine ⟨fun i hd => ⟨_, exec_eq_run i s, stepWith_of_len_le_one m s _ i hlaunch.status hone hd (exec_eq_run i s)⟩,
    fun e hd => ⟨?_, ?_⟩, fun hzero => ?_⟩
  · by_contra hne
    obtain ⟨i, hgood⟩ := exists_decodeWith_zero m hm
    rw [hempty (by omega), hgood] at hd
    cases hd
  · exact ⟨e.1, stepWith_of_undecodable m s e.1 hlaunch.status hd⟩
  · have hd : decodeWith defaultOpMap (fetch s) = .good (.addA 0) := by
      rw [hempty hzero]
      decide
    have hnext := stepWith_of_len_le_one defaultOpMap s s (.addA 0) hlaunch.status hone hd (exec_addA_zero s)
    rw [hlaunch.pc] at hnext
    exact hnext

/-- Settles O46: the source of either input is the latch, and no step of the run has written it. -/
theorem everyInputOfARunReadsTheSameLatch : Obligations.EveryInputOfARunReadsTheSameLatch := by
  unfold Obligations.EveryInputOfARunReadsTheSameLatch
  intro m s t u k hrun ht hstep
  obtain ⟨-, -, hportIn⟩ := runWith_keeps_parameters m k s t hrun
  rw [← hportIn]
  constructor
  · intro hd
    rw [stepWith_of_exec m t _ .inA ht hd (exec_eq_run .inA t)] at hstep
    cases hstep
    rfl
  · intro hd
    rw [stepWith_of_exec m t _ .inB ht hd (exec_eq_run .inB t)] at hstep
    cases hstep
    rfl

end Sys2Proof.Machine
end

section
/-! Before the run (spec/70_reset_and_hazards.md, spec/60_exceptions.md section 2): reset, the assembler, and the memory that
booting builds. -/

namespace Sys2Proof.Machine

/-! ### The assembler and the boot -/

theorem assemble_nil (m : OpMap) : assemble m [] = .refused .emptyProgram := if_pos rfl

theorem assemble_of_ne_nil (m : OpMap) (xs : List AbstractInstr) (h : xs ≠ []) :
    assemble m xs = .next (xs.map (encodeAbstract m)) :=
  if_neg h

/-- If booting answers a state, it is the reset state over the memory of the bytes. -/
theorem eq_afterReset_of_boot {bytes : List Byte} {portIn : Nibble} {s : State} (h : boot bytes portIn = .next s) :
    ∃ hfits : programFits bytes,
      s = State.afterReset (Memory.ofBytes bytes) ⟨bytes.length, Nat.lt_succ_of_le hfits⟩ portIn := by
  have hfits : programFits bytes := (exists_boot_eq_next_iff bytes portIn).mp ⟨s, h⟩
  rw [boot_of_programFits bytes portIn hfits] at h
  cases h
  exact ⟨hfits, rfl⟩

theorem isLaunch_afterReset (mem : Memory) (len : Fin (Config.capacity + 1)) (portIn : Nibble) :
    IsLaunch (State.afterReset mem len portIn) :=
  ⟨rfl, rfl, rfl, rfl, rfl, rfl⟩

theorem Memory.read_ofBytes_of_lt (bytes : List Byte) (addr : Nat) (h : addr < bytes.length) :
    (Memory.ofBytes bytes).read addr = bytes[addr] := by
  rw [Memory.read_ofBytes, List.getD_eq_getElem _ _ h]

/-! ### The obligations -/

/-- Settles O39: the reset state is the one over the empty memory. -/
theorem invariantHoldsAtReset : Obligations.InvariantHoldsAtReset := by
  unfold Obligations.InvariantHoldsAtReset
  exact fun m => inv_afterReset m [] lenUnloaded portInUnset ⟨reset_memory_wf, nofun⟩

/-- Settles O41: reset and the reset state, field by field. -/
theorem resetSetsTheSixElementsOnly : Obligations.ResetSetsTheSixElementsOnly := by
  unfold Obligations.ResetSetsTheSixElementsOnly
  exact ⟨fun _ => rfl, rfl, rfl⟩

/-- Settles O43: booting leaves the reset state over the memory of the bytes, which is canonical, within the length, and reads
back. -/
theorem bootedStateHoldsTheProgram : Obligations.BootedStateHoldsTheProgram := by
  unfold Obligations.BootedStateHoldsTheProgram
  intro m bytes portIn s hboot
  obtain ⟨hfits, rfl⟩ := eq_afterReset_of_boot hboot
  exact ⟨isLaunch_afterReset _ _ _, inv_afterReset m _ _ _ ⟨Memory.ofBytes_wf bytes, Memory.ofBytes_bound bytes⟩, rfl, rfl,
    Memory.read_ofBytes_of_lt bytes⟩

/-- Settles O44: the assembler tests for the empty source alone, and encodes one byte for each instruction. -/
theorem emptyProgramIsTheOnlyAssemblerRefusal : Obligations.EmptyProgramIsTheOnlyAssemblerRefusal := by
  unfold Obligations.EmptyProgramIsTheOnlyAssemblerRefusal
  intro m xs
  refine ⟨⟨fun hrefused => ?_, fun hnil => hnil ▸ assemble_nil m⟩,
    fun hne => ⟨_, assemble_of_ne_nil m xs hne, List.length_map _⟩⟩
  by_contra hne
  rw [assemble_of_ne_nil m xs hne] at hrefused
  cases hrefused

/-- Settles O45: the cell at each index holds the byte the encoder made there, which decodes back. -/
theorem assembledProgramDecodesBackFromMemory : Obligations.AssembledProgramDecodesBackFromMemory := by
  unfold Obligations.AssembledProgramDecodesBackFromMemory
  intro m xs portIn hm ⟨hne, hvalid⟩ hle
  have hlength : (xs.map (encodeAbstract m)).length = xs.length := List.length_map _
  have hboot := boot_of_programFits (xs.map (encodeAbstract m)) portIn (hlength.trans_le hle)
  refine ⟨_, _, assemble_of_ne_nil m xs hne, hboot, hlength, fun addr h => ?_⟩
  rw [State.afterReset_mem, Memory.read_ofBytes_of_lt _ addr (hlength.symm ▸ h), List.getElem_map]
  exact decodePair_encodeAbstract m hm xs[addr] (hvalid _ (List.getElem_mem h))

end Sys2Proof.Machine
end
